-- ==== Sys2Proof/Word.lean ====
section
/-! DEFINITION. The widths of the CHIP-8 CORE (00_scope.md rules R6, R7): what the spec treats as bits is a bit vector.
-/

namespace Sys2Proof

/-- An 8-bit value: a general register, a timer, a byte of memory, the immediate `NN` (R21, R29, R37, R71). -/
abbrev Byte := BitVec 8

/-- A 16-bit value: `pc`, `I`, a stack entry, an instruction word (R24, R27, R33, R70). -/
abbrev Word := BitVec 16

/-- A 4-bit field: a register index `X` or `Y`, the immediate `N`, a key (R71, R188). -/
abbrev Nibble := BitVec 4

/-- A 12-bit address field `NNN` (R71). -/
abbrev Addr := BitVec 12

end Sys2Proof
end

