-- ==== Sys2Proof/Syntax.lean ====
section
/-! DEFINITION. The instructions: one constructor per row of spec/opcode_table.json (30_encoding.md rule R74), each
carrying its extracted operand fields (R75), and `nop` for the catch-all row (R77). Fields an instruction does not use
are kept (log entry 12).
-/

namespace Sys2Proof

/-- The closed set of operation cases a word decodes to (R75), in the table's order. -/
inductive Instr where
  /-- `00E0` CLS: clear the framebuffer (R150). -/
  | cls
  /-- `00EE` RET: pop the stack into `pc` (R100). -/
  | ret
  /-- `1NNN` JP NNN (R101). -/
  | jp (nnn : Addr)
  /-- `2NNN` CALL NNN (R102). -/
  | call (nnn : Addr)
  /-- `3XNN` SE VX, NN (R110). -/
  | seImm (x : Nibble) (nn : Byte)
  /-- `4XNN` SNE VX, NN (R111). -/
  | sneImm (x : Nibble) (nn : Byte)
  /-- `5XY0` SE VX, VY (R112). -/
  | seReg (x y : Nibble)
  /-- `6XNN` LD VX, NN (R122). -/
  | ldImm (x : Nibble) (nn : Byte)
  /-- `7XNN` ADD VX, NN (R123). -/
  | addImm (x : Nibble) (nn : Byte)
  /-- `8XY0` LD VX, VY (R124). -/
  | ldReg (x y : Nibble)
  /-- `8XY1` OR VX, VY (R125). -/
  | orReg (x y : Nibble)
  /-- `8XY2` AND VX, VY (R126). -/
  | andReg (x y : Nibble)
  /-- `8XY3` XOR VX, VY (R127). -/
  | xorReg (x y : Nibble)
  /-- `8XY4` ADD VX, VY (R128). -/
  | addReg (x y : Nibble)
  /-- `8XY5` SUB VX, VY (R129). -/
  | sub (x y : Nibble)
  /-- `8XY6` SHR VX; the field `Y` is decoded but not used (R76, R130). -/
  | shr (x y : Nibble)
  /-- `8XY7` SUBN VX, VY (R131). -/
  | subn (x y : Nibble)
  /-- `8XYE` SHL VX; the field `Y` is decoded but not used (R76, R132). -/
  | shl (x y : Nibble)
  /-- `9XY0` SNE VX, VY (R113). -/
  | sneReg (x y : Nibble)
  /-- `ANNN` LD I, NNN (R140). -/
  | ldI (nnn : Addr)
  /-- `BXNN` JP VX, NNN: `X` is also the top nibble of `NNN` (R71, R103). -/
  | jpOff (x : Nibble) (nnn : Addr)
  /-- `CXNN` RND VX, NN (R133). -/
  | rnd (x : Nibble) (nn : Byte)
  /-- `DXYN` DRW VX, VY, N (R152). -/
  | drw (x y n : Nibble)
  /-- `EX9E` SKP VX (R114). -/
  | skp (x : Nibble)
  /-- `EXA1` SKNP VX (R115). -/
  | sknp (x : Nibble)
  /-- `FX07` LD VX, DT (R160). -/
  | ldFromDt (x : Nibble)
  /-- `FX0A` LD VX, K (R161). -/
  | ldKey (x : Nibble)
  /-- `FX15` LD DT, VX (R162). -/
  | ldDt (x : Nibble)
  /-- `FX18` LD ST, VX (R163). -/
  | ldSt (x : Nibble)
  /-- `FX1E` ADD I, VX (R141). -/
  | addI (x : Nibble)
  /-- `FX29` LD F, VX (R143). -/
  | ldFont (x : Nibble)
  /-- `FX33` LD B, VX (R144). -/
  | ldBcd (x : Nibble)
  /-- `FX55` LD [I], VX: here `X` is a count (R145). -/
  | stRegs (x : Nibble)
  /-- `FX65` LD VX, [I]: here `X` is a count (R146). -/
  | ldRegs (x : Nibble)
  /-- NOP: an unrecognised word, carried whole; no field of it is used (R77, R96). -/
  | nop (w : Word)
  deriving DecidableEq, Repr

end Sys2Proof
end

