-- ==== Sys2Proof/WellFormed.lean ====
section
/-! DEFINITION. The opcode map as the spec prints it (30_encoding.md rule R74: mask, match), and the checks an
instruction must pass to be one that a word stands for. Field ranges need no check: the fields are bit vectors.
-/

namespace Sys2Proof

/-- One row of the opcode map: `ir` is the instruction of the row exactly when `ir &&& mask = value` (R74). -/
structure OpcodeRow where
  /-- The row's mnemonic, as spec/opcode_table.json spells it. -/
  mnemonic : String
  /-- The bits that are compared. -/
  mask : Word
  /-- What they must be (the spec's "match"). -/
  value : Word
  deriving DecidableEq, Repr

/-- `ir` is the instruction of the row (R74). -/
def OpcodeRow.covers (r : OpcodeRow) (ir : Word) : Bool := ir &&& r.mask == r.value

/-- Families 0 to 7 of the opcode map (R74). -/
def opcodeRowsLow : List OpcodeRow := [
  ⟨"CLS", 0xFFFF, 0x00E0⟩,
  ⟨"RET", 0xFFFF, 0x00EE⟩,
  ⟨"JP_NNN", 0xF000, 0x1000⟩,
  ⟨"CALL_NNN", 0xF000, 0x2000⟩,
  ⟨"SE_VX_NN", 0xF000, 0x3000⟩,
  ⟨"SNE_VX_NN", 0xF000, 0x4000⟩,
  ⟨"SE_VX_VY", 0xF00F, 0x5000⟩,
  ⟨"LD_VX_NN", 0xF000, 0x6000⟩,
  ⟨"ADD_VX_NN", 0xF000, 0x7000⟩]

/-- Family 8 of the opcode map (R74). -/
def opcodeRowsAlu : List OpcodeRow := [
  ⟨"LD_VX_VY", 0xF00F, 0x8000⟩,
  ⟨"OR_VX_VY", 0xF00F, 0x8001⟩,
  ⟨"AND_VX_VY", 0xF00F, 0x8002⟩,
  ⟨"XOR_VX_VY", 0xF00F, 0x8003⟩,
  ⟨"ADD_VX_VY", 0xF00F, 0x8004⟩,
  ⟨"SUB_VX_VY", 0xF00F, 0x8005⟩,
  ⟨"SHR_VX", 0xF00F, 0x8006⟩,
  ⟨"SUBN_VX_VY", 0xF00F, 0x8007⟩,
  ⟨"SHL_VX", 0xF00F, 0x800E⟩]

/-- Families 9 to 0xE of the opcode map (R74). -/
def opcodeRowsMid : List OpcodeRow := [
  ⟨"SNE_VX_VY", 0xF00F, 0x9000⟩,
  ⟨"LD_I_NNN", 0xF000, 0xA000⟩,
  ⟨"JP_VX_NNN", 0xF000, 0xB000⟩,
  ⟨"RND_VX_NN", 0xF000, 0xC000⟩,
  ⟨"DRW_VX_VY_N", 0xF000, 0xD000⟩,
  ⟨"SKP_VX", 0xF0FF, 0xE09E⟩,
  ⟨"SKNP_VX", 0xF0FF, 0xE0A1⟩]

/-- Family 0xF of the opcode map (R74). -/
def opcodeRowsMisc : List OpcodeRow := [
  ⟨"LD_VX_DT", 0xF0FF, 0xF007⟩,
  ⟨"LD_VX_K", 0xF0FF, 0xF00A⟩,
  ⟨"LD_DT_VX", 0xF0FF, 0xF015⟩,
  ⟨"LD_ST_VX", 0xF0FF, 0xF018⟩,
  ⟨"ADD_I_VX", 0xF0FF, 0xF01E⟩,
  ⟨"LD_F_VX", 0xF0FF, 0xF029⟩,
  ⟨"LD_B_VX", 0xF0FF, 0xF033⟩,
  ⟨"LD_MI_VX", 0xF0FF, 0xF055⟩,
  ⟨"LD_VX_MI", 0xF0FF, 0xF065⟩]

/-- The 34 rows of the opcode map (R74). The catch-all row `NOP` is not among them: it applies when none of these does. -/
def opcodeRows : List OpcodeRow := opcodeRowsLow ++ opcodeRowsAlu ++ opcodeRowsMid ++ opcodeRowsMisc

/-- An unrecognised word: it matches no row of the map (R77). -/
def unrecognised (ir : Word) : Bool := opcodeRows.all fun r => !r.covers ir

/-- The mnemonic of an instruction's row in spec/opcode_table.json. -/
def Instr.mnemonic : Instr → String
  | .cls => "CLS"
  | .ret => "RET"
  | .jp _ => "JP_NNN"
  | .call _ => "CALL_NNN"
  | .seImm _ _ => "SE_VX_NN"
  | .sneImm _ _ => "SNE_VX_NN"
  | .seReg _ _ => "SE_VX_VY"
  | .ldImm _ _ => "LD_VX_NN"
  | .addImm _ _ => "ADD_VX_NN"
  | .ldReg _ _ => "LD_VX_VY"
  | .orReg _ _ => "OR_VX_VY"
  | .andReg _ _ => "AND_VX_VY"
  | .xorReg _ _ => "XOR_VX_VY"
  | .addReg _ _ => "ADD_VX_VY"
  | .sub _ _ => "SUB_VX_VY"
  | .shr _ _ => "SHR_VX"
  | .subn _ _ => "SUBN_VX_VY"
  | .shl _ _ => "SHL_VX"
  | .sneReg _ _ => "SNE_VX_VY"
  | .ldI _ => "LD_I_NNN"
  | .jpOff _ _ => "JP_VX_NNN"
  | .rnd _ _ => "RND_VX_NN"
  | .drw _ _ _ => "DRW_VX_VY_N"
  | .skp _ => "SKP_VX"
  | .sknp _ => "SKNP_VX"
  | .ldFromDt _ => "LD_VX_DT"
  | .ldKey _ => "LD_VX_K"
  | .ldDt _ => "LD_DT_VX"
  | .ldSt _ => "LD_ST_VX"
  | .addI _ => "ADD_I_VX"
  | .ldFont _ => "LD_F_VX"
  | .ldBcd _ => "LD_B_VX"
  | .stRegs _ => "LD_MI_VX"
  | .ldRegs _ => "LD_VX_MI"
  | .nop _ => "NOP"

/-- The instruction is one that some word stands for. Two constructors carry a relation between fields: in `BXNN` the
register field is the top nibble of the address (R71), and a `nop` carries an unrecognised word (R77). -/
def Instr.wf : Instr → Bool
  | .cls => true
  | .ret => true
  | .jp _ => true
  | .call _ => true
  | .seImm _ _ => true
  | .sneImm _ _ => true
  | .seReg _ _ => true
  | .ldImm _ _ => true
  | .addImm _ _ => true
  | .ldReg _ _ => true
  | .orReg _ _ => true
  | .andReg _ _ => true
  | .xorReg _ _ => true
  | .addReg _ _ => true
  | .sub _ _ => true
  | .shr _ _ => true
  | .subn _ _ => true
  | .shl _ _ => true
  | .sneReg _ _ => true
  | .ldI _ => true
  | .jpOff x nnn => x == nnn.extractLsb' 8 4
  | .rnd _ _ => true
  | .drw _ _ _ => true
  | .skp _ => true
  | .sknp _ => true
  | .ldFromDt _ => true
  | .ldKey _ => true
  | .ldDt _ => true
  | .ldSt _ => true
  | .addI _ => true
  | .ldFont _ => true
  | .ldBcd _ => true
  | .stRegs _ => true
  | .ldRegs _ => true
  | .nop w => unrecognised w

end Sys2Proof
end

