-- ==== Sys2Proof/Decode.lean ====
section
/-! DEFINITION. The decoder and the encoder, both from 30_encoding.md: fields by bit position (R71), the two-level
dispatch (R75), the bits compared (R76), unrecognised words (R77), the byte order in memory (20_memory.md rule R53).
-/

namespace Sys2Proof

/-- `op`, bits 15..12 (R71). -/
def opField (ir : Word) : Nibble := ir.extractLsb' 12 4

/-- `X`, bits 11..8 (R71). -/
def xField (ir : Word) : Nibble := ir.extractLsb' 8 4

/-- `Y`, bits 7..4 (R71). -/
def yField (ir : Word) : Nibble := ir.extractLsb' 4 4

/-- `N`, bits 3..0 (R71). -/
def nField (ir : Word) : Nibble := ir.extractLsb' 0 4

/-- `NN`, bits 7..0 (R71). -/
def nnField (ir : Word) : Byte := ir.extractLsb' 0 8

/-- `NNN`, bits 11..0 (R71). -/
def nnnField (ir : Word) : Addr := ir.extractLsb' 0 12

/-- Family 0: the whole word is compared (R75, R76). -/
def decodeFamily0 (ir : Word) : Instr :=
  if ir = 0x00E0#16 then .cls
  else if ir = 0x00EE#16 then .ret
  else .nop ir

/-- Family 8: the low nibble selects the operation (R75). -/
def decodeFamily8 (ir : Word) : Instr :=
  let x := xField ir
  let y := yField ir
  match nField ir with
  | 0x0#4 => .ldReg x y
  | 0x1#4 => .orReg x y
  | 0x2#4 => .andReg x y
  | 0x3#4 => .xorReg x y
  | 0x4#4 => .addReg x y
  | 0x5#4 => .sub x y
  | 0x6#4 => .shr x y
  | 0x7#4 => .subn x y
  | 0xE#4 => .shl x y
  | _ => .nop ir

/-- Family 0xE: the low byte selects the operation (R75). -/
def decodeFamilyE (ir : Word) : Instr :=
  match nnField ir with
  | 0x9E#8 => .skp (xField ir)
  | 0xA1#8 => .sknp (xField ir)
  | _ => .nop ir

/-- Family 0xF: the low byte selects the operation (R75). -/
def decodeFamilyF (ir : Word) : Instr :=
  let x := xField ir
  match nnField ir with
  | 0x07#8 => .ldFromDt x
  | 0x0A#8 => .ldKey x
  | 0x15#8 => .ldDt x
  | 0x18#8 => .ldSt x
  | 0x1E#8 => .addI x
  | 0x29#8 => .ldFont x
  | 0x33#8 => .ldBcd x
  | 0x55#8 => .stRegs x
  | 0x65#8 => .ldRegs x
  | _ => .nop ir

/-- `Decode(ir)` (R75): total, every one of the 65536 words has its instruction. -/
def decodeWord (ir : Word) : Instr :=
  match opField ir with
  | 0x0#4 => decodeFamily0 ir
  | 0x1#4 => .jp (nnnField ir)
  | 0x2#4 => .call (nnnField ir)
  | 0x3#4 => .seImm (xField ir) (nnField ir)
  | 0x4#4 => .sneImm (xField ir) (nnField ir)
  | 0x5#4 => if nField ir = 0x0#4 then .seReg (xField ir) (yField ir) else .nop ir
  | 0x6#4 => .ldImm (xField ir) (nnField ir)
  | 0x7#4 => .addImm (xField ir) (nnField ir)
  | 0x8#4 => decodeFamily8 ir
  | 0x9#4 => if nField ir = 0x0#4 then .sneReg (xField ir) (yField ir) else .nop ir
  | 0xA#4 => .ldI (nnnField ir)
  | 0xB#4 => .jpOff (xField ir) (nnnField ir)
  | 0xC#4 => .rnd (xField ir) (nnField ir)
  | 0xD#4 => .drw (xField ir) (yField ir) (nField ir)
  | 0xE#4 => decodeFamilyE ir
  | _ => decodeFamilyF ir

/-- Why a byte string holds no instruction. -/
inductive DecodeError where
  /-- Fewer than the two bytes that every instruction has (R70). -/
  | truncated
  deriving DecidableEq, Repr

/-- Read one instruction from bytes in the order memory holds them, the high byte first (R53, R70); the bytes after it
are handed back. -/
def decode : List Byte → Except DecodeError (Instr × List Byte)
  | hi :: lo :: rest => .ok (decodeWord (hi ++ lo), rest)
  | _ => .error .truncated

/-- The word of an instruction: the pattern of its row with the fields in their places (R71, R72, R74). -/
def encodeWord : Instr → Word
  | .cls => 0x00E0#16
  | .ret => 0x00EE#16
  | .jp nnn => 0x1#4 ++ nnn
  | .call nnn => 0x2#4 ++ nnn
  | .seImm x nn => 0x3#4 ++ x ++ nn
  | .sneImm x nn => 0x4#4 ++ x ++ nn
  | .seReg x y => 0x5#4 ++ x ++ y ++ 0x0#4
  | .ldImm x nn => 0x6#4 ++ x ++ nn
  | .addImm x nn => 0x7#4 ++ x ++ nn
  | .ldReg x y => 0x8#4 ++ x ++ y ++ 0x0#4
  | .orReg x y => 0x8#4 ++ x ++ y ++ 0x1#4
  | .andReg x y => 0x8#4 ++ x ++ y ++ 0x2#4
  | .xorReg x y => 0x8#4 ++ x ++ y ++ 0x3#4
  | .addReg x y => 0x8#4 ++ x ++ y ++ 0x4#4
  | .sub x y => 0x8#4 ++ x ++ y ++ 0x5#4
  | .shr x y => 0x8#4 ++ x ++ y ++ 0x6#4
  | .subn x y => 0x8#4 ++ x ++ y ++ 0x7#4
  | .shl x y => 0x8#4 ++ x ++ y ++ 0xE#4
  | .sneReg x y => 0x9#4 ++ x ++ y ++ 0x0#4
  | .ldI nnn => 0xA#4 ++ nnn
  | .jpOff _ nnn => 0xB#4 ++ nnn
  | .rnd x nn => 0xC#4 ++ x ++ nn
  | .drw x y n => 0xD#4 ++ x ++ y ++ n
  | .skp x => 0xE#4 ++ x ++ 0x9E#8
  | .sknp x => 0xE#4 ++ x ++ 0xA1#8
  | .ldFromDt x => 0xF#4 ++ x ++ 0x07#8
  | .ldKey x => 0xF#4 ++ x ++ 0x0A#8
  | .ldDt x => 0xF#4 ++ x ++ 0x15#8
  | .ldSt x => 0xF#4 ++ x ++ 0x18#8
  | .addI x => 0xF#4 ++ x ++ 0x1E#8
  | .ldFont x => 0xF#4 ++ x ++ 0x29#8
  | .ldBcd x => 0xF#4 ++ x ++ 0x33#8
  | .stRegs x => 0xF#4 ++ x ++ 0x55#8
  | .ldRegs x => 0xF#4 ++ x ++ 0x65#8
  | .nop w => w

/-- The high byte of a word, which stands at the lower address (R53). -/
def highByte (ir : Word) : Byte := ir.extractLsb' 8 8

/-- The low byte of a word, which stands at the higher address (R53). -/
def lowByte (ir : Word) : Byte := ir.extractLsb' 0 8

/-- The two bytes of an instruction as memory holds them (R53). -/
def encode (i : Instr) : List Byte := [highByte (encodeWord i), lowByte (encodeWord i)]

/-- The word that the opcode table's bit numbering gives: `w` is the row's `nbits` bits, those above are 0. Every
instruction is one word (R70), so bits above 15 belong to no instruction. -/
def tableWord (nbits w : Nat) : Word := BitVec.ofNat 16 (w % 2 ^ nbits)

/-- What the decoder reads from the bytes of that word, laid out as the hardware stores them (R53). -/
def decodeTableWord (nbits w : Nat) : Option Instr :=
  match decode [highByte (tableWord nbits w), lowByte (tableWord nbits w)] with
  | .ok (i, _) => some i
  | .error _ => none

end Sys2Proof
end

