-- ==== Sys2Proof/Config.lean ====
section
/-! DEFINITION. What is fixed for the machine (00_scope.md rule R6) and the free values: constants without a body, which
no proof can see into.
-/

namespace Sys2Proof.Config

/-- `MEM_SIZE`: 4096 bytes (R6, R37). -/
def memSize : Nat := 4096

/-- `PROG_BASE`: where the host loads the program (R6, R51). -/
def progBase : Nat := 512

/-- `RESET_PC` (R6, R24, R200). -/
def resetPc : Word := 0x0200

/-- `STACK_DEPTH` as the spec chooses it: 16 (R6, R33, 92_eei_decisions.md D3). -/
def stackDepth : Nat := 16

/-- `JUMP_USES_V0` as the spec chooses it: false (R6, R103, 92_eei_decisions.md D8). -/
def jumpUsesV0 : Bool := false

/-- `FONT_BASE`: OPEN in the spec, any natural number with `FONT_BASE + 80 <= 512`, that is at most 432 (R6, R51,
92_eei_decisions.md D6). FREE VALUE (log entry 5): nothing but the bound is known of it. -/
opaque fontBase : Fin 433

/-- `FONT_DATA`: OPEN in the spec, the 80 bytes of the host's font load, digit 0 first (R6, R206,
92_eei_decisions.md D7). FREE VALUE (log entry 5): nothing is known of it. -/
opaque fontData : Vector Byte 80

/-- The keypad argument of the `n`-th `Step` whose arguments nobody wrote into the state: one of 17 values, under no law
(R188, 93_implementation_defined.md U15). FREE VALUE (log entry 2). -/
opaque freeKey : Nat → Option Nibble

/-- The random-byte argument of the `n`-th such `Step`, under no law (R133, R189, U6). FREE VALUE (log entry 2). -/
opaque freeRnd : Nat → Byte

/-- Digits 0 to 7 of the default `FONT_DATA` (R206). PRESUMED: the spec marks the bytes as general knowledge (log entry
10); no rule of the core reads them. -/
def fontDigits0to7 : List Byte := [
  0xF0, 0x90, 0x90, 0x90, 0xF0,
  0x20, 0x60, 0x20, 0x20, 0x70,
  0xF0, 0x10, 0xF0, 0x80, 0xF0,
  0xF0, 0x10, 0xF0, 0x10, 0xF0,
  0x90, 0x90, 0xF0, 0x10, 0x10,
  0xF0, 0x80, 0xF0, 0x10, 0xF0,
  0xF0, 0x80, 0xF0, 0x90, 0xF0,
  0xF0, 0x10, 0x20, 0x40, 0x40]

/-- Digits 8 to F of the default `FONT_DATA` (R206), marked as `fontDigits0to7`. -/
def fontDigits8toF : List Byte := [
  0xF0, 0x90, 0xF0, 0x90, 0xF0,
  0xF0, 0x90, 0xF0, 0x10, 0xF0,
  0xF0, 0x90, 0xF0, 0x90, 0x90,
  0xE0, 0x90, 0xE0, 0x90, 0xE0,
  0xF0, 0x80, 0x80, 0x80, 0xF0,
  0xE0, 0x90, 0x90, 0x90, 0xE0,
  0xF0, 0x80, 0xF0, 0x80, 0xF0,
  0xF0, 0x80, 0xF0, 0x80, 0x80]

/-- The default `FONT_DATA`: 80 bytes, digit 0 first (R206). A value that `FONT_DATA` may have; no core rule reads it. -/
def defaultFontData : List Byte := fontDigits0to7 ++ fontDigits8toF

end Sys2Proof.Config
end

