-- ==== Sys2Proof/Machine/State.lean ====
section
/-! DEFINITION. The state of the machine as plain data: everything of 10_state.md rule R20, the parameters of
00_scope.md rule R6, and the host's side of the interface (operations to come, arguments of the current one, its reply).
-/

namespace Sys2Proof.Machine

/-- `MEM` (R37): the bytes that are not 0x00, addresses strictly rising, all below 4096. An address that is not listed
reads 0x00, the spec's own content after reset (R20, R58; log entry 16). -/
abbrev Memory := List Host.Cell

/-- `FB` (R35): 32 rows of 64 cells; `true` = lit. -/
abbrev Screen := Vector (Vector Bool 64) 32

/-- The causes a fault records (R39, R170). -/
inductive FaultCause where
  /-- Code 1: `00EE` with an empty stack. -/
  | stackUnderflow
  /-- Code 2: `2NNN` with a full stack. -/
  | stackOverflow
  /-- Code 3: `FX33`, `FX55`, `FX65`, `DXYN` with an address above 4095. -/
  | memRange
  /-- Code 4: `FX29` with `V[X] > 15`. -/
  | fontDigitRange
  deriving DecidableEq, Repr

/-- What one `Step` returns (R92). -/
inductive Status where
  /-- `Continue`: an instruction was executed, a waiting `FX0A` and a `NOP` included. -/
  | continues
  /-- `EndOfMemory`: `pc > 0xFFE` at entry. -/
  | endOfMemory
  /-- `Fatal(code)`: `fault` was set at entry, or the instruction raised a fault. -/
  | fatal (cause : FaultCause)
  deriving DecidableEq, Repr

/-- What the host gets back from an operation (R209). -/
inductive Reply where
  /-- `Reset()` and `Tick()` give nothing back. -/
  | nothing
  /-- `Load` gave `Ok`. -/
  | loadOk
  /-- `Load` gave `LoadError`. -/
  | loadError
  /-- The status of a `Step`. -/
  | status (st : Status)
  deriving DecidableEq, Repr

/-- The operations by which the host drives the machine and changes its state (R209). Reading `FB` and `ST` changes
nothing (R191) and needs no constructor. -/
inductive HostOp where
  /-- `Reset()` (R200). -/
  | reset
  /-- `Load(base, bytes)` (R65). -/
  | load (base : Nat) (bytes : List Byte)
  /-- `Step(key, rnd)`; `key` is `None` or `Key(k)` (R90, R188). -/
  | step (key : Option Nibble) (rnd : Byte)
  /-- `Tick()` (R186). -/
  | tick
  deriving DecidableEq, Repr

/-- The parameters of one machine (R6), fixed at construction (R202). They stand in the state so that a statement about
every state holds for every value of them (log entry 5). -/
structure Params where
  /-- `FONT_BASE`, with `FONT_BASE + 80 <= 512` in its type. -/
  fontBase : Fin 433
  /-- `FONT_DATA`, read by no instruction: what the host's font load writes (R206, R208). -/
  fontData : Vector Byte 80
  /-- `STACK_DEPTH`. -/
  stackDepth : Nat
  /-- `JUMP_USES_V0`. -/
  jumpUsesV0 : Bool
  deriving DecidableEq, Repr

/-- The whole state. -/
structure State where
  /-- `V[0]`..`V[15]` (R21); `V[15]` is the flag register `VF` (R23). -/
  v : Vector Byte 16
  /-- `I` (R27). -/
  idx : Word
  /-- `pc` (R24). -/
  pc : Word
  /-- `DT` (R29). -/
  dt : Byte
  /-- `ST` (R29). -/
  st : Byte
  /-- `STACK` (R33): the most recent entry, `STACK[SP-1]`, first; `SP` is the length (log entry 8). -/
  stack : List Word
  /-- `FB` (R35). -/
  fb : Screen
  /-- `MEM` (R37). -/
  mem : Memory
  /-- `fault` (R39): code 0 is `none`. -/
  fault : Option FaultCause
  /-- The parameters (R6, R202). -/
  params : Params
  /-- The model's own: the keypad argument of the `Step` in progress (R41; log entry 3). -/
  key : Option Nibble
  /-- The model's own: the random-byte argument of the `Step` in progress (R41; log entry 3). -/
  rnd : Byte
  /-- The model's own: the host's coming operations, the next one first (R97; log entry 1). -/
  ops : List HostOp
  /-- The model's own: how many `Step` arguments were taken from the free values (log entry 2). -/
  inputNo : Nat
  /-- The model's own: what the last operation gave back to the host (R43, R92, R209; log entry 4). -/
  reply : Reply
  deriving DecidableEq, Repr

/-- The machine right after reset (R20, R200). `key`, `rnd`, `ops` and `inputNo` are the model's own and their values a
DESIGN CHOICE (log entries 1 to 3); `reply` is what `Reset()` gives back (R209). -/
def State.reset : State where
  v := Vector.replicate 16 0x00
  idx := 0x0000
  pc := Config.resetPc
  dt := 0x00
  st := 0x00
  stack := []
  fb := Vector.replicate 32 (Vector.replicate 64 false)
  mem := []
  fault := none
  params :=
    { fontBase := Config.fontBase
      fontData := Config.fontData
      stackDepth := Config.stackDepth
      jumpUsesV0 := Config.jumpUsesV0 }
  key := none
  rnd := 0x00
  ops := []
  inputNo := 0
  reply := .nothing

/-- The reasons for which a step would stop in `Outcome.fault`: there are none. Every operation of this machine is a
total function of the state and its arguments (93_implementation_defined.md: "Nothing in the machine is a `stuck`
state"), and the spec's own faults are states: `State.fault` is written and the machine goes on answering the host
(60_exceptions.md rules R176, R178; log entry 6). No constructor, so nobody raises one: safe. -/
inductive Fault where
  deriving DecidableEq, Repr

/-- The reasons for which a step is refused. -/
inductive Refusal where
  /-- Raised by an arm of `exec` whose instruction has no meaning yet; no arm raises it any more. Safe. -/
  | notModelled (mnemonic : String)
  deriving DecidableEq, Repr

end Sys2Proof.Machine
end

