-- ==== Sys2Proof/Machine/Ops.lean ====
section
/-! DEFINITION. The named operations over memory, registers, stack and screen (00_scope.md rule R8), taking a fault
(60_exceptions.md rule R176), and the host's operations `Reset`, `Load`, `Tick` (70_reset_and_hazards.md rule R209).
-/

namespace Sys2Proof.Machine

/-- What an instruction or an operation answers. -/
abbrev Result := Host.Outcome State Fault Refusal

/-! ### Memory (20_memory.md) -/

/-- The canonical form of memory: addresses strictly rising, all in 0..4095, no byte listed that an unlisted address
reads as (R37). -/
abbrev Memory.wf (m : Memory) : Prop :=
  m.Pairwise (fun c d => c.1 < d.1) ∧ ∀ c ∈ m, c.1 < Config.memSize ∧ c.2 ≠ 0x00#8

/-- `MemRead(a, 1)` (R8, R58): the byte last written, 0x00 if none since reset. -/
def Memory.read : Memory → Nat → Byte
  | [], _ => 0x00
  | (k, b) :: m, a => if k = a then b else Memory.read m a

/-- `MemWrite(a, 1, b)` (R8), in canonical form: 0x00 is not listed. -/
def Memory.write : Memory → Nat → Byte → Memory
  | [], a, b => if b = 0x00#8 then [] else [(a, b)]
  | (k, c) :: m, a, b =>
    if a < k then (if b = 0x00#8 then (k, c) :: m else (a, b) :: (k, c) :: m)
    else if a = k then (if b = 0x00#8 then m else (a, b) :: m)
    else (k, c) :: Memory.write m a b

/-- The bytes at ascending addresses from `a` on, in the order of the list (R52, R54). -/
def Memory.writeBytes (m : Memory) (a : Nat) : List Byte → Memory
  | [] => m
  | b :: bs => Memory.writeBytes (m.write a b) (a + 1) bs

/-- `n` bytes at ascending addresses from `a` on (R52, R54). -/
def Memory.readBytes (m : Memory) (a : Nat) : Nat → List Byte
  | 0 => []
  | n + 1 => m.read a :: Memory.readBytes m (a + 1) n

/-- One byte of `MEM`. -/
def State.memByte (s : State) (a : Nat) : Byte := s.mem.read a

/-- `MEM` replaced. -/
def State.setMem (s : State) (m : Memory) : State := { s with mem := m }

/-- The instruction word at `pc`, the byte at the lower address high (R53, R93). `pc + 1` is a natural number (R8). -/
def State.fetchWord (s : State) : Word := s.memByte s.pc.toNat ++ s.memByte (s.pc.toNat + 1)

/-! ### Registers (10_state.md) -/

/-- Read of `V[x]` (R8, R21): every field value names a register. -/
def State.readV (s : State) (x : Nibble) : Byte := s.v[x.toNat]'x.isLt

/-- `V[x] <- b` (R8, R21). -/
def State.writeV (s : State) (x : Nibble) (b : Byte) : State := { s with v := s.v.set x.toNat b x.isLt }

/-- `V[k]`, `V[k+1]`, ... written from a list, in ascending order; `k` counts in four bits. -/
def State.writeRegs (s : State) (k : Nibble) : List Byte → State
  | [] => s
  | b :: bs => State.writeRegs (s.writeV k b) (k + 1) bs

/-- `I <- w` (R8, R27). -/
def State.setIdx (s : State) (w : Word) : State := { s with idx := w }

/-- `pc <- w` (R8, R26). -/
def State.goto (s : State) (w : Word) : State := { s with pc := w }

/-- `next`: `pc <- pc + 2` (R8; 16-bit addition, log entry 13). -/
def State.advance (s : State) : State := s.goto (s.pc + 2)

/-- `skip` if the condition holds, else `next`: `pc <- pc + 4` or `pc <- pc + 2` (R8, R26). -/
def State.skipIf (s : State) (c : Bool) : State := s.goto (if c then s.pc + 4 else s.pc + 2)

/-- `DT <- b` (R8, R29). -/
def State.setDt (s : State) (b : Byte) : State := { s with dt := b }

/-- `ST <- b` (R8, R29). -/
def State.setSt (s : State) (b : Byte) : State := { s with st := b }

/-! ### Stack (R33) -/

/-- The stack replaced. -/
def State.setStack (s : State) (l : List Word) : State := { s with stack := l }

/-- There is room for one more entry: `SP < STACK_DEPTH`, so that `SP` stays in 0..`STACK_DEPTH` (R20, R33). -/
def State.hasStackRoom (s : State) : Bool := decide (s.stack.length < s.params.stackDepth)

/-- `Push(w)` when there is room (R33). -/
def State.push (s : State) (w : Word) : State := s.setStack (w :: s.stack)

/-! ### Framebuffer (R35) -/

/-- The framebuffer replaced. -/
def State.setFb (s : State) (f : Screen) : State := { s with fb := f }

/-- `FB[y][x]` (R8, R35). -/
def State.cell (s : State) (y : Fin 32) (x : Fin 64) : Bool := (s.fb[y.val]'y.isLt)[x.val]'x.isLt

/-- `FB[y][x] <- b` (R8, R35). -/
def State.setCell (s : State) (y : Fin 32) (x : Fin 64) (b : Bool) : State :=
  s.setFb (s.fb.set y.val ((s.fb[y.val]'y.isLt).set x.val b x.isLt) y.isLt)

/-- The framebuffer with every cell unlit (R150). -/
def clearScreen : Screen := Vector.replicate 32 (Vector.replicate 64 false)

/-! ### Faults (60_exceptions.md)

There is no return from a fault (R178), so nothing stands beside the entry. -/

/-- The number of a cause (R39, R170). -/
def FaultCause.code : FaultCause → Nat
  | .stackUnderflow => 1
  | .stackOverflow => 2
  | .memRange => 3
  | .fontDigitRange => 4

/-- The fault register as the number the spec gives it: 0 is no fault (R39). -/
def State.faultCode (s : State) : Nat :=
  match s.fault with
  | none => 0
  | some c => c.code

/-- The effect of `raise F` (R8, R176): `fault <- code(F)`, nothing else changes. -/
def State.raise (s : State) (c : FaultCause) : State := { s with fault := some c }

/-- Taking a fault, the ONE entry of the machine (R176): the instruction ends with `fault` written and `pc` still at it. -/
def takeFault (c : FaultCause) (s : State) : Result := .next (s.raise c)

/-! ### The host's side (R209) -/

/-- What the operation gives back to the host. -/
def State.answer (s : State) (r : Reply) : State := { s with reply := r }

/-- The arguments of the `Step` in progress (R90, and the phase `DECODE` of R95, which latches `key` and `rnd`). -/
def State.latch (s : State) (key : Option Nibble) (rnd : Byte) : State := { s with key := key, rnd := rnd }

/-- One timer counted down, floor 0 (R186). -/
def countDown (b : Byte) : Byte := if b = 0x00#8 then 0x00 else b - 1

/-- `Tick()` (R186): both timers, nothing else; accepted in every run state. -/
def State.tick (s : State) : State := ((s.setDt (countDown s.dt)).setSt (countDown s.st)).answer .nothing

/-- `Load(base, bytes)` (R65): all bytes or none. -/
def State.load (s : State) (base : Nat) (bytes : List Byte) : State :=
  if base + bytes.length > Config.memSize then s.answer .loadError
  else (s.setMem (s.mem.writeBytes base bytes)).answer .loadOk

/-- `Reset()` (R200): every component of the state; the parameters (R202) and the host's own plans stay (log
entry 14). -/
def State.hostReset (s : State) : State :=
  { State.reset with params := s.params, ops := s.ops, inputNo := s.inputNo }

/-- The host's next operation, and the state with it taken off. When none is written down the host makes a `Step`
whose arguments are free values (log entry 2). -/
def State.nextOp (s : State) : HostOp × State :=
  match s.ops with
  | [] => (.step (Config.freeKey s.inputNo) (Config.freeRnd s.inputNo), { s with inputNo := s.inputNo + 1 })
  | op :: rest => (op, { s with ops := rest })

/-- What the host does before a program runs (R208): reset, font load, program load. -/
def bootOps (p : Params) (program : List Byte) : List HostOp :=
  [.reset, .load p.fontBase.val p.fontData.toList, .load Config.progBase program]

/-! ### Outputs (R43, R190) -/

/-- `sound_on` (R190). -/
def State.soundOn (s : State) : Bool := decide (s.st ≠ 0x00#8)

/-- The framebuffer as the host reads it: cell `(y, x)` at place `y * 64 + x` (R35, R191). -/
def State.frame (s : State) : List Bool := s.fb.toList.flatMap (fun row => row.toList)

end Sys2Proof.Machine
end

