-- ==== Sys2Proof/Machine/Flags.lean ====
section
/-! DEFINITION. The flag computations: `VF` is the only flag (10_state.md rule R23), written with 0x00 or 0x01 as the
last of an instruction's register writes (43_alu.md rule R121).
-/

namespace Sys2Proof.Machine

/-- `VF`, the flag register `V[0xF]` (R23). -/
def flagReg : Nibble := 0xF

/-- A flag as the 8-bit value that `VF` receives (R23). -/
def flagByte (b : Bool) : Byte := if b then 0x01 else 0x00

/-- Carry out of `a + b` (R128): the 9-bit sum exceeds 255. -/
def carryOut (a b : Byte) : Bool := decide (a.toNat + b.toNat > 255)

/-- No borrow in `a - b` (R129, R131). -/
def notBorrow (a b : Byte) : Bool := decide (a.toNat ≥ b.toNat)

/-- The bit that a shift right drops (R130). -/
def shiftOutLow (a : Byte) : Bool := a.getLsbD 0

/-- The bit that a shift left drops (R132). -/
def shiftOutHigh (a : Byte) : Bool := a.getLsbD 7

/-- The two writes of a flag-setting instruction (R121): the result to `V[X]`, then the flag to `VF`, so that the flag
remains when `X = 0xF`. -/
def State.writeWithFlag (s : State) (x : Nibble) (result : Byte) (flag : Bool) : State :=
  (s.writeV x result).writeV flagReg (flagByte flag)

end Sys2Proof.Machine
end

