-- ==== Sys2Proof/Machine/Operands.lean ====
section
/-! DEFINITION. Operand forms: immediates (30_encoding.md rule R73), the key (R114), addresses `I + k` (44_index_memory.md
rule R142) with the check of the whole transfer (20_memory.md rule R56), digits and font addresses.
-/

namespace Sys2Proof.Machine

/-- `zext_16(NNN)` (R73). -/
def zextAddr (nnn : Addr) : Word := nnn.zeroExtend 16

/-- `zext_16(V[X])` (R103, R141). -/
def zextByte (b : Byte) : Word := b.zeroExtend 16

/-- `zext_8(k)`, the key as a register value (R114, R161). -/
def keyByte (k : Nibble) : Byte := k.zeroExtend 8

/-- `key = Key(k)` with `zext_8(k) = b` (R114): false when no key is pressed. -/
def State.keyIs (s : State) (b : Byte) : Bool :=
  match s.key with
  | none => false
  | some k => keyByte k == b

/-- The check before a transfer of `n` bytes at `I`, `I + 1`, ... (R56): the last address is at most 4095, in unbounded
arithmetic; a transfer of no byte always fits. -/
def State.transferFits (s : State) (n : Nat) : Bool := decide (n = 0 ∨ s.idx.toNat + (n - 1) ≤ 4095)

/-- How many registers `V[0]`..`V[X]` are (R145, R146): `X` is a count. -/
def regCount (x : Nibble) : Nat := x.toNat + 1

/-- `V[0]`..`V[X]`, in order (R145). -/
def State.firstRegs (s : State) (x : Nibble) : List Byte := s.v.toList.take (regCount x)

/-- The three decimal digits: hundreds, tens, ones (R144). -/
def bcdDigits (b : Byte) : List Byte :=
  [BitVec.ofNat 8 (b.toNat / 100), BitVec.ofNat 8 (b.toNat / 10 % 10), BitVec.ofNat 8 (b.toNat % 10)]

/-- `FONT_BASE + 5 * d`, the address of the sprite of digit `d` (R143). -/
def fontAddress (p : Params) (d : Byte) : Word := BitVec.ofNat 16 (p.fontBase.val + 5 * d.toNat)

/-- The register that `BXNN` adds (R103): `V[X]`, or `V[0]` when `JUMP_USES_V0`. -/
def State.jumpReg (s : State) (x : Nibble) : Nibble := if s.params.jumpUsesV0 then 0x0 else x

end Sys2Proof.Machine
end

