-- ==== Sys2Proof/Machine/Alu.lean ====
section
/-! DEFINITION. Register load, arithmetic and logic (43_alu.md). Operands are read before any write (00_scope.md rule R9).
-/

namespace Sys2Proof.Machine

/-- `6XNN` LD VX, NN (R122). -/
def execLdImm (x : Nibble) (nn : Byte) (s : State) : Result := .next (s.writeV x nn).advance

/-- `7XNN` ADD VX, NN (R123): modulo 256, no flag. -/
def execAddImm (x : Nibble) (nn : Byte) (s : State) : Result := .next (s.writeV x (s.readV x + nn)).advance

/-- `8XY0` LD VX, VY (R124). -/
def execLdReg (x y : Nibble) (s : State) : Result := .next (s.writeV x (s.readV y)).advance

/-- `8XY1` OR VX, VY (R125): no flag. -/
def execOrReg (x y : Nibble) (s : State) : Result := .next (s.writeV x (s.readV x ||| s.readV y)).advance

/-- `8XY2` AND VX, VY (R126): no flag. -/
def execAndReg (x y : Nibble) (s : State) : Result := .next (s.writeV x (s.readV x &&& s.readV y)).advance

/-- `8XY3` XOR VX, VY (R127): no flag. -/
def execXorReg (x y : Nibble) (s : State) : Result := .next (s.writeV x (s.readV x ^^^ s.readV y)).advance

/-- `8XY4` ADD VX, VY (R128): `VF` = carry out; no carry in. -/
def execAddReg (x y : Nibble) (s : State) : Result :=
  let a := s.readV x
  let b := s.readV y
  .next (s.writeWithFlag x (a + b) (carryOut a b)).advance

/-- `8XY5` SUB VX, VY (R129): `VF` = no borrow. -/
def execSub (x y : Nibble) (s : State) : Result :=
  let a := s.readV x
  let b := s.readV y
  .next (s.writeWithFlag x (a - b) (notBorrow a b)).advance

/-- `8XY6` SHR VX (R130): logical, in place; `Y` is ignored. -/
def execShr (x _y : Nibble) (s : State) : Result :=
  let a := s.readV x
  .next (s.writeWithFlag x (a >>> 1) (shiftOutLow a)).advance

/-- `8XY7` SUBN VX, VY (R131): `V[Y] - V[X]`, `VF` = no borrow. -/
def execSubn (x y : Nibble) (s : State) : Result :=
  let a := s.readV x
  let b := s.readV y
  .next (s.writeWithFlag x (b - a) (notBorrow b a)).advance

/-- `8XYE` SHL VX (R132): in place; `Y` is ignored. -/
def execShl (x _y : Nibble) (s : State) : Result :=
  let a := s.readV x
  .next (s.writeWithFlag x (a <<< 1) (shiftOutHigh a)).advance

/-- `CXNN` RND VX, NN (R133): the random byte of this `Step` AND `NN`. -/
def execRnd (x : Nibble) (nn : Byte) (s : State) : Result := .next (s.writeV x (s.rnd &&& nn)).advance

end Sys2Proof.Machine
end

