-- ==== Sys2Proof/Machine/Display.lean ====
section
/-! DEFINITION. The display: clear and sprite draw (45_display.md), the sprite as the list of its lit cells on the screen
(log entry 15).
-/

namespace Sys2Proof.Machine

/-- `00E0` CLS (R150): every cell unlit, no flag. -/
def execCls (s : State) : Result := .next (s.setFb clearScreen).advance

/-- The column of the sprite's left edge: `V[X] mod 64` (R151). -/
def spriteLeft (vx : Byte) : Nat := vx.toNat % 64

/-- The row of the sprite's top edge: `V[Y] mod 32` (R151). -/
def spriteTop (vy : Byte) : Nat := vy.toNat % 32

/-- How many sprite rows fall on the screen: `min(N, 32 - y0)` (R152). -/
def spriteRows (n : Nibble) (y0 : Nat) : Nat := min n.toNat (32 - y0)

/-- The lit cells of one sprite row, left to right (R151): column `c` is bit `7 - c` of the byte, and a pixel past the
right edge targets nothing. -/
def litInRow (b : Byte) (y : Fin 32) (x0 : Nat) : List (Fin 32 × Fin 64) :=
  (List.range 8).filterMap fun c =>
    if h : x0 + c < 64 then (if b.getLsbD (7 - c) then some (y, ⟨x0 + c, h⟩) else none) else none

/-- The cells that the sprite's lit bits target, in scan order, rows top to bottom (R151, R152): row `r` is the byte at
`I + r`, and a row past the bottom edge targets nothing. -/
def litCells (m : Memory) (base x0 y0 rows : Nat) : List (Fin 32 × Fin 64) :=
  (List.range rows).flatMap fun r =>
    if h : y0 + r < 32 then litInRow (m.read (base + r)) ⟨y0 + r, h⟩ x0 else []

/-- The pixels of a `DXYN` at this state: coordinates and bytes as they are before any write (R9, R152). -/
def State.spriteCells (s : State) (x y n : Nibble) : List (Fin 32 × Fin 64) :=
  let x0 := spriteLeft (s.readV x)
  let y0 := spriteTop (s.readV y)
  litCells s.mem s.idx.toNat x0 y0 (spriteRows n y0)

/-- One lit sprite bit (R152): `VF` is reset, the cell is toggled, and `VF` is set when the cell was lit. -/
def State.drawCell (s : State) (p : Fin 32 × Fin 64) : State :=
  if s.cell p.1 p.2 then ((s.writeV flagReg (flagByte false)).setCell p.1 p.2 false).writeV flagReg (flagByte true)
  else (s.writeV flagReg (flagByte false)).setCell p.1 p.2 true

/-- The lit sprite bits one after the other, in scan order (R152). -/
def State.drawCells (s : State) : List (Fin 32 × Fin 64) → State
  | [] => s
  | p :: ps => State.drawCells (s.drawCell p) ps

/-- `DXYN` DRW VX, VY, N (R152): MemRange when a row that would be drawn lies beyond address 4095. -/
def execDrw (x y n : Nibble) (s : State) : Result :=
  if s.transferFits (spriteRows n (spriteTop (s.readV y))) then
    .next (s.drawCells (s.spriteCells x y n)).advance
  else takeFault .memRange s

end Sys2Proof.Machine
end

