-- ==== Sys2Proof/Machine/Flow.lean ====
section
/-! DEFINITION. Control transfer (41_flow.md) and `NOP` (40_step_cycle.md rule R96).
-/

namespace Sys2Proof.Machine

/-- `00EE` RET (R100): the popped value is the new `pc`; StackUnderflow on an empty stack. -/
def execRet (s : State) : Result :=
  match s.stack with
  | [] => takeFault .stackUnderflow s
  | w :: rest => .next ((s.setStack rest).goto w)

/-- `1NNN` JP NNN (R101). -/
def execJp (nnn : Addr) (s : State) : Result := .next (s.goto (zextAddr nnn))

/-- `2NNN` CALL NNN (R102): pushes `pc + 2`; StackOverflow on a full stack. -/
def execCall (nnn : Addr) (s : State) : Result :=
  if s.hasStackRoom then .next ((s.push (s.pc + 2)).goto (zextAddr nnn)) else takeFault .stackOverflow s

/-- `BXNN` JP VX, NNN (R103): the sum is not reduced modulo 4096. -/
def execJpOff (x : Nibble) (nnn : Addr) (s : State) : Result :=
  .next (s.goto (zextAddr nnn + zextByte (s.readV (s.jumpReg x))))

/-- NOP, any unrecognised word (R77, R96): only `pc` advances; the word is not used. -/
def execNop (_w : Word) (s : State) : Result := .next s.advance

end Sys2Proof.Machine
end

