-- ==== Sys2Proof/Machine/IndexMemory.lean ====
section
/-! DEFINITION. The index register and the memory transfers (44_index_memory.md). A transfer is checked whole before its
first access, and `I` is never modified by one (R142).
-/

namespace Sys2Proof.Machine

/-- `ANNN` LD I, NNN (R140). -/
def execLdI (nnn : Addr) (s : State) : Result := .next (s.setIdx (zextAddr nnn)).advance

/-- `FX1E` ADD I, VX (R141): wraps at 16 bits, no flag. -/
def execAddI (x : Nibble) (s : State) : Result := .next (s.setIdx (s.idx + zextByte (s.readV x))).advance

/-- `FX29` LD F, VX (R143): FontDigitRange when `V[X] > 15`. -/
def execLdFont (x : Nibble) (s : State) : Result :=
  let d := s.readV x
  if d.toNat > 15 then takeFault .fontDigitRange s else .next (s.setIdx (fontAddress s.params d)).advance

/-- `FX33` LD B, VX (R144): hundreds, tens, ones at `I`, `I + 1`, `I + 2`. -/
def execLdBcd (x : Nibble) (s : State) : Result :=
  if s.transferFits 3 then .next (s.setMem (s.mem.writeBytes s.idx.toNat (bcdDigits (s.readV x)))).advance
  else takeFault .memRange s

/-- `FX55` LD [I], VX (R145): `V[0]`..`V[X]` to `I`..`I + X`. -/
def execStRegs (x : Nibble) (s : State) : Result :=
  if s.transferFits (regCount x) then .next (s.setMem (s.mem.writeBytes s.idx.toNat (s.firstRegs x))).advance
  else takeFault .memRange s

/-- `FX65` LD VX, [I] (R146): `V[0]`..`V[X]` from `I`..`I + X`. -/
def execLdRegs (x : Nibble) (s : State) : Result :=
  if s.transferFits (regCount x) then
    .next (s.writeRegs 0x0 (s.mem.readBytes s.idx.toNat (regCount x))).advance
  else takeFault .memRange s

end Sys2Proof.Machine
end

