-- ==== Sys2Proof/Machine/Skip.lean ====
section
/-! DEFINITION. The six conditional skips (42_skip.md).
-/

namespace Sys2Proof.Machine

/-- `3XNN` SE VX, NN (R110). -/
def execSeImm (x : Nibble) (nn : Byte) (s : State) : Result := .next (s.skipIf (s.readV x == nn))

/-- `4XNN` SNE VX, NN (R111). -/
def execSneImm (x : Nibble) (nn : Byte) (s : State) : Result := .next (s.skipIf (s.readV x != nn))

/-- `5XY0` SE VX, VY (R112). -/
def execSeReg (x y : Nibble) (s : State) : Result := .next (s.skipIf (s.readV x == s.readV y))

/-- `9XY0` SNE VX, VY (R113). -/
def execSneReg (x y : Nibble) (s : State) : Result := .next (s.skipIf (s.readV x != s.readV y))

/-- `EX9E` SKP VX (R114): the whole 8-bit `V[X]` is compared with the key. -/
def execSkp (x : Nibble) (s : State) : Result := .next (s.skipIf (s.keyIs (s.readV x)))

/-- `EXA1` SKNP VX (R115): the exact negation of `EX9E`. -/
def execSknp (x : Nibble) (s : State) : Result := .next (s.skipIf (!s.keyIs (s.readV x)))

end Sys2Proof.Machine
end

