-- ==== Sys2Proof/Machine/TimerKey.lean ====
section
/-! DEFINITION. Timer and keypad instructions (46_timer_key.md).
-/

namespace Sys2Proof.Machine

/-- `FX07` LD VX, DT (R160). -/
def execLdFromDt (x : Nibble) (s : State) : Result := .next (s.writeV x s.dt).advance

/-- `FX0A` LD VX, K (R161): without a key nothing changes, `pc` included; with one, `V[X]` takes it. -/
def execLdKey (x : Nibble) (s : State) : Result :=
  .next (match s.key with
    | none => s
    | some k => (s.writeV x (keyByte k)).advance)

/-- `FX15` LD DT, VX (R162). -/
def execLdDt (x : Nibble) (s : State) : Result := .next (s.setDt (s.readV x)).advance

/-- `FX18` LD ST, VX (R163). -/
def execLdSt (x : Nibble) (s : State) : Result := .next (s.setSt (s.readV x)).advance

end Sys2Proof.Machine
end

