-- ==== Sys2Proof/Machine/Cycle.lean ====
section
/-! DEFINITION. The step cycle (40_step_cycle.md rule R91) and what each operation of the host does (R209).
-/

namespace Sys2Proof.Machine

/-- `pc > 0xFFE`: no whole instruction is left in memory (R57, R91). -/
def State.atEnd (s : State) : Bool := decide (s.pc.toNat > 0xFFE)

/-- The status of a `Step` that executed an instruction and left this state (R91, R92). -/
def State.statusAfter (s : State) : Status :=
  match s.fault with
  | none => .continues
  | some c => .fatal c

/-- The executed instruction's state, with the status given back to the host (R91 steps 5 and 6). -/
def settle (r : Result) : Result :=
  match r with
  | .next t => .next (t.answer (.status t.statusAfter))
  | .fault f => .fault f
  | .refused f => .refused f

/-- Fetch, decode, execute (R91 steps 3 to 6). -/
def runInstr (key : Option Nibble) (rnd : Byte) (s : State) : Result :=
  settle (exec (decodeWord s.fetchWord) (s.latch key rnd))

/-- `Step(key, rnd)` (R91): first the sticky fault, then the end of memory, then one instruction. -/
def hostStep (key : Option Nibble) (rnd : Byte) (s : State) : Result :=
  match s.fault with
  | some c => .next (s.answer (.status (.fatal c)))
  | none => if s.atEnd then .next (s.answer (.status .endOfMemory)) else runInstr key rnd s

/-- One operation of the host (R209). -/
def perform (op : HostOp) (s : State) : Result :=
  match op with
  | .reset => .next s.hostReset
  | .load base bytes => .next (s.load base bytes)
  | .step key rnd => hostStep key rnd s
  | .tick => .next s.tick

/-- The next operation is a `Step`, or nothing is written down, which makes it one. -/
def HostOp.isStep : HostOp → Bool
  | .step _ _ => true
  | .reset => false
  | .load _ _ => false
  | .tick => false

/-- Where `Step` fetches its next instruction once it can: `pc`, or the program base when `pc` is past the end. -/
def State.fetchPc (s : State) : Word := if s.atEnd then Config.resetPc else s.pc

/-- The state in which the very next operation is a `Step` that fetches the word `w` (log entry 9): the two bytes stored
at `pc` (R53), no operation other than a `Step` before it, no fault, `pc` not past the end. -/
def State.placeWord (s : State) (w : Word) : State :=
  let a := s.fetchPc
  { s with
    mem := s.mem.writeBytes a.toNat [highByte w, lowByte w]
    pc := a
    fault := none
    ops := s.ops.dropWhile (fun op => !op.isStep) }

end Sys2Proof.Machine
end

