-- ==== Sys2Proof/Machine/Step.lean ====
section
/-! DEFINITION. One step of the machine: the host's next operation, performed whole (00_scope.md rule R5, R97).
-/

namespace Sys2Proof.Machine

/-- One step: the next operation of the host (log entries 1, 2). -/
def step (s : State) : Host.Outcome State Fault Refusal := perform s.nextOp.1 s.nextOp.2

/-- `s` with the table's word stored where the next `step` fetches it, and nothing in the way of that fetch. -/
def State.withFetchWord (s : State) (nbits w : Nat) : State := s.placeWord (tableWord nbits w)

end Sys2Proof.Machine
end

