-- ==== Sys2Proof/Safety.lean ====
section
/-! DEFINITION. The terms that claims about the machine use: run states, the invariant, what an instruction may change,
when it faults and where `pc` goes, each written from the spec's own tables and not from the meanings.
-/

namespace Sys2Proof.Machine

/-! ### Run states (40_step_cycle.md rule R95) -/

/-- The run states, functions of the state (R95). -/
inductive RunState where
  /-- `fault = 0` and `pc <= 0xFFE`. -/
  | running
  /-- `fault = 0` and `pc > 0xFFE`. -/
  | ended
  /-- `fault != 0`. A run that comes here has gone wrong (60_exceptions.md rule R178). -/
  | faulted
  deriving DecidableEq, Repr

/-- The run state of a state (R95). -/
def State.runState (s : State) : RunState :=
  if s.fault.isSome then .faulted else if s.pc.toNat > 0xFFE then .ended else .running

/-! ### The invariant -/

/-- No `Step` reply says `Fatal` of a cause that `fault` does not hold (R91, R92). -/
def State.replyAgrees (s : State) : Bool :=
  match s.reply with
  | .status (.fatal c) => s.fault == some c
  | .status .continues => true
  | .status .endOfMemory => true
  | .nothing => true
  | .loadOk => true
  | .loadError => true

/-- What holds of every state a run reaches: memory in its canonical form; at most `STACK_DEPTH` entries (R20, R33), none
above 0x1000 (R102); `pc` at most 0x10FE (R26); a faulted machine has `pc` inside memory (R174). -/
abbrev State.Inv (s : State) : Prop :=
  s.mem.wf ∧ s.stack.length ≤ s.params.stackDepth ∧ (∀ w ∈ s.stack, w.toNat ≤ 0x1000) ∧ s.pc.toNat ≤ 0x10FE ∧
    (s.fault.isSome → s.pc.toNat ≤ 0xFFE) ∧ s.replyAgrees = true

/-! ### What changes -/

/-- A place of the state that can change or stay. -/
inductive Loc where
  /-- `V[r]`. -/
  | reg (r : Nibble)
  /-- `I`. -/
  | idx
  /-- `pc`. -/
  | pc
  /-- `DT`. -/
  | dt
  /-- `ST`. -/
  | st
  /-- The whole stack. -/
  | stack
  /-- `FB[y][x]`. -/
  | cell (y : Fin 32) (x : Fin 64)
  /-- The byte of `MEM` at `a`. -/
  | byte (a : Nat)
  /-- `fault`. -/
  | fault
  /-- The parameters and the host's side: arguments of the `Step`, operations to come, reply. -/
  | host
  deriving DecidableEq, Repr

/-- The place holds the same in both states. -/
def Loc.same (l : Loc) (s t : State) : Prop :=
  match l with
  | .reg r => t.readV r = s.readV r
  | .idx => t.idx = s.idx
  | .pc => t.pc = s.pc
  | .dt => t.dt = s.dt
  | .st => t.st = s.st
  | .stack => t.stack = s.stack
  | .cell y x => t.cell y x = s.cell y x
  | .byte a => t.memByte a = s.memByte a
  | .fault => t.fault = s.fault
  | .host =>
    t.params = s.params ∧ t.key = s.key ∧ t.rnd = s.rnd ∧ t.ops = s.ops ∧ t.inputNo = s.inputNo ∧ t.reply = s.reply

/-- Every place outside `w` holds the same in both states. -/
def ChangesOnly (w : Loc → Prop) (s t : State) : Prop := ∀ l, ¬ w l → l.same s t

/-! ### Sprites (45_display.md rules R151, R153) -/

/-- The sprite of `DXYN` at this state has a lit bit on the cell `(y, x)` of the screen (R151): row `r = y - y0` is the
byte at `I + r`, column `c = x - x0` its bit `7 - c`. -/
def State.spriteLit (s : State) (vx vy n : Nibble) (y : Fin 32) (x : Fin 64) : Bool :=
  let x0 := (s.readV vx).toNat % 64
  let y0 := (s.readV vy).toNat % 32
  decide (y0 ≤ y.val ∧ y.val < y0 + n.toNat ∧ x0 ≤ x.val ∧ x.val < x0 + 8) &&
    (s.memByte (s.idx.toNat + (y.val - y0))).getLsbD (7 - (x.val - x0))

/-- Scan order (R152): rows top to bottom, within a row left to right. -/
def scanBefore (p q : Fin 32 × Fin 64) : Prop := p.1 < q.1 ∨ (p.1 = q.1 ∧ p.2 < q.2)

/-! ### When an instruction faults (20_memory.md rule R56, 60_exceptions.md rule R170) -/

/-- How many rows of a `DXYN` fall on the screen (R56). -/
def State.rowsOnScreen (s : State) (vy n : Nibble) : Nat := min n.toNat (32 - (s.readV vy).toNat % 32)

/-- The fault an instruction raises at this state, by the tables of R56 and R170; a stack longer than `STACK_DEPTH` counts
as full (log entry 8). -/
def faultOf (i : Instr) (s : State) : Option FaultCause :=
  match i with
  | .ret => if s.stack.length = 0 then some .stackUnderflow else none
  | .call _ => if s.stack.length ≥ s.params.stackDepth then some .stackOverflow else none
  | .ldFont x => if (s.readV x).toNat > 15 then some .fontDigitRange else none
  | .ldBcd _ => if s.idx.toNat + 2 > 4095 then some .memRange else none
  | .stRegs x => if s.idx.toNat + x.toNat > 4095 then some .memRange else none
  | .ldRegs x => if s.idx.toNat + x.toNat > 4095 then some .memRange else none
  | .drw _ y n =>
    if s.rowsOnScreen y n ≥ 1 ∧ s.idx.toNat + s.rowsOnScreen y n - 1 > 4095 then some .memRange else none
  | .cls | .jp _ | .seImm _ _ | .sneImm _ _ | .seReg _ _ | .ldImm _ _ | .addImm _ _ | .ldReg _ _ | .orReg _ _
  | .andReg _ _ | .xorReg _ _ | .addReg _ _ | .sub _ _ | .shr _ _ | .subn _ _ | .shl _ _ | .sneReg _ _ | .ldI _
  | .jpOff _ _ | .rnd _ _ | .skp _ | .sknp _ | .ldFromDt _ | .ldKey _ | .ldDt _ | .ldSt _ | .addI _ | .nop _ => none

/-! ### What an instruction may write (10_state.md rules R22, R23, R27, R29, R33, R35, R37) -/

/-- The places, `pc` apart, that an instruction writes when it does not fault, by the tables of 10_state.md. -/
def writesBesidePc (i : Instr) (s : State) (l : Loc) : Prop :=
  match i with
  | .cls => ∃ y x, l = .cell y x
  | .ret | .call _ => l = .stack
  | .jp _ | .jpOff _ _ | .seImm _ _ | .sneImm _ _ | .seReg _ _ | .sneReg _ _ | .skp _ | .sknp _ | .nop _ => False
  | .ldImm x _ | .addImm x _ | .ldReg x _ | .orReg x _ | .andReg x _ | .xorReg x _ | .rnd x _ | .ldFromDt x => l = .reg x
  | .ldKey x => s.key.isSome ∧ l = .reg x
  | .addReg x _ | .sub x _ | .shr x _ | .subn x _ | .shl x _ => l = .reg x ∨ l = .reg 0xF#4
  | .ldI _ | .addI _ | .ldFont _ => l = .idx
  | .drw x y n =>
    (l = .reg 0xF#4 ∧ ∃ cy cx, s.spriteLit x y n cy cx = true) ∨
      ∃ cy cx, s.spriteLit x y n cy cx = true ∧ l = .cell cy cx
  | .ldDt _ => l = .dt
  | .ldSt _ => l = .st
  | .ldBcd _ => ∃ k, k ≤ 2 ∧ l = .byte (s.idx.toNat + k)
  | .stRegs x => ∃ k, k ≤ x.toNat ∧ l = .byte (s.idx.toNat + k)
  | .ldRegs x => ∃ r : Nibble, r.toNat ≤ x.toNat ∧ l = .reg r

/-- The places an instruction writes when it does not fault; a waiting `FX0A` does not write `pc` either (R26). -/
def writesOf (i : Instr) (s : State) (l : Loc) : Prop := l = .pc ∨ writesBesidePc i s l

/-! ### Where `pc` goes (10_state.md rule R26) -/

/-- The condition of a conditional skip (42_skip.md), by the first column of R26's table; `false` for the rest. -/
def skipCondition (i : Instr) (s : State) : Bool :=
  match i with
  | .seImm x nn => s.readV x == nn
  | .sneImm x nn => s.readV x != nn
  | .seReg x y => s.readV x == s.readV y
  | .sneReg x y => s.readV x != s.readV y
  | .skp x => s.key.any (fun k => k.toNat == (s.readV x).toNat)
  | .sknp x => !(s.key.any (fun k => k.toNat == (s.readV x).toNat))
  | .cls | .ret | .jp _ | .call _ | .ldImm _ _ | .addImm _ _ | .ldReg _ _ | .orReg _ _ | .andReg _ _ | .xorReg _ _
  | .addReg _ _ | .sub _ _ | .shr _ _ | .subn _ _ | .shl _ _ | .ldI _ | .jpOff _ _ | .rnd _ _ | .drw _ _ _
  | .ldFromDt _ | .ldKey _ | .ldDt _ | .ldSt _ | .addI _ | .ldFont _ | .ldBcd _ | .stRegs _ | .ldRegs _ | .nop _ => false

/-- `pc` after an instruction that does not fault, as a natural number, by the table of R26. -/
def pcAfter (i : Instr) (s : State) : Nat :=
  match i with
  | .ret => (s.stack.headD 0).toNat
  | .jp nnn | .call nnn => nnn.toNat
  | .jpOff x nnn => nnn.toNat + (s.readV (if s.params.jumpUsesV0 then 0x0 else x)).toNat
  | .ldKey _ => if s.key.isSome then s.pc.toNat + 2 else s.pc.toNat
  | .seImm _ _ | .sneImm _ _ | .seReg _ _ | .sneReg _ _ | .skp _ | .sknp _ =>
    if skipCondition i s then s.pc.toNat + 4 else s.pc.toNat + 2
  | .cls | .ldImm _ _ | .addImm _ _ | .ldReg _ _ | .orReg _ _ | .andReg _ _ | .xorReg _ _ | .addReg _ _ | .sub _ _
  | .shr _ _ | .subn _ _ | .shl _ _ | .ldI _ | .rnd _ _ | .drw _ _ _ | .ldFromDt _ | .ldDt _ | .ldSt _ | .addI _
  | .ldFont _ | .ldBcd _ | .stRegs _ | .ldRegs _ | .nop _ => s.pc.toNat + 2

/-! ### Runs of operations -/

/-- The host resets in none of the operations it still plans. -/
def State.noResetPlanned (s : State) : Prop := HostOp.reset ∉ s.ops

end Sys2Proof.Machine
end

