-- ==== Sys2Proof/Certificates/Slice0/Obligations.lean ====
section
/-! DEFINITION. The statements for the provers, family by family in the order of the spec's files. A comment "model's
choice" names the log entry a statement rests on; the rest is in OBLIGATIONS.json.
-/

open Sys2Proof Sys2Proof.Machine

/-! ### Encoding (30_encoding.md) -/

/-- 30_encoding.md sections 1 and 3: no bit of an encoding is dropped. Every well-formed instruction is what its word, and
its two bytes in front of any others, decode to. -/
def Obligations.DecodeOfEncode : Prop :=
  ∀ i : Instr, i.wf = true →
    decodeWord (encodeWord i) = i ∧ ∀ rest, decode (encode i ++ rest) = .ok (i, rest)

/-- 30_encoding.md section 3 ("`Decode` is total"): every one of the 65536 words decodes to a well-formed instruction
whose word it is. -/
def Obligations.EncodeOfDecode : Prop :=
  ∀ w : Word, (decodeWord w).wf = true ∧ encodeWord (decodeWord w) = w

/-- 30_encoding.md sections 3 and 4: a word is the instruction of a row exactly when `ir & mask = match`, so the rows are
disjoint, and the words that no row covers are the `NOP`s. -/
def Obligations.DecodeFollowsOpcodeMap : Prop :=
  ∀ w : Word,
    (∀ r ∈ opcodeRows, r.covers w = true ↔ (decodeWord w).mnemonic = r.mnemonic) ∧
      (unrecognised w = true ↔ decodeWord w = .nop w)

/-- R75: the two-level dispatch, every case with its extracted operand fields, and `NOP` for the rest of each family. -/
def Obligations.DispatchDecodesEveryPattern : Prop :=
  (decodeWord 0x00E0 = .cls ∧ decodeWord 0x00EE = .ret ∧
    ∀ nnn : Addr, nnn ≠ 0x0E0 → nnn ≠ 0x0EE → decodeWord (0x0#4 ++ nnn) = .nop (0x0#4 ++ nnn)) ∧
  (∀ nnn : Addr,
    decodeWord (0x1#4 ++ nnn) = .jp nnn ∧ decodeWord (0x2#4 ++ nnn) = .call nnn ∧
    decodeWord (0xA#4 ++ nnn) = .ldI nnn ∧ decodeWord (0xB#4 ++ nnn) = .jpOff (nnn.extractLsb' 8 4) nnn) ∧
  (∀ (x : Nibble) (nn : Byte),
    decodeWord (0x3#4 ++ x ++ nn) = .seImm x nn ∧ decodeWord (0x4#4 ++ x ++ nn) = .sneImm x nn ∧
    decodeWord (0x6#4 ++ x ++ nn) = .ldImm x nn ∧ decodeWord (0x7#4 ++ x ++ nn) = .addImm x nn ∧
    decodeWord (0xC#4 ++ x ++ nn) = .rnd x nn) ∧
  (∀ x y n : Nibble,
    decodeWord (0x5#4 ++ x ++ y ++ n) = (if n = 0 then .seReg x y else .nop (0x5#4 ++ x ++ y ++ n)) ∧
    decodeWord (0x9#4 ++ x ++ y ++ n) = (if n = 0 then .sneReg x y else .nop (0x9#4 ++ x ++ y ++ n)) ∧
    decodeWord (0xD#4 ++ x ++ y ++ n) = .drw x y n ∧
    decodeWord (0x8#4 ++ x ++ y ++ n) =
      (if n = 0x0 then .ldReg x y else if n = 0x1 then .orReg x y else if n = 0x2 then .andReg x y
        else if n = 0x3 then .xorReg x y else if n = 0x4 then .addReg x y else if n = 0x5 then .sub x y
        else if n = 0x6 then .shr x y else if n = 0x7 then .subn x y else if n = 0xE then .shl x y
        else .nop (0x8#4 ++ x ++ y ++ n))) ∧
  (∀ (x : Nibble) (kk : Byte),
    decodeWord (0xE#4 ++ x ++ kk) =
      (if kk = 0x9E then .skp x else if kk = 0xA1 then .sknp x else .nop (0xE#4 ++ x ++ kk)) ∧
    decodeWord (0xF#4 ++ x ++ kk) =
      (if kk = 0x07 then .ldFromDt x else if kk = 0x0A then .ldKey x else if kk = 0x15 then .ldDt x
        else if kk = 0x18 then .ldSt x else if kk = 0x1E then .addI x else if kk = 0x29 then .ldFont x
        else if kk = 0x33 then .ldBcd x else if kk = 0x55 then .stRegs x else if kk = 0x65 then .ldRegs x
        else .nop (0xF#4 ++ x ++ kk)))

/-- Words that the spec itself prints with their instruction, given to the byte decoder high byte first. -/
def Obligations.PrintedWordsDecode : Prop :=
  decode [0x60, 0x0C] = .ok (.ldImm 0 0x0C, []) ∧ decode [0x70, 0x05] = .ok (.addImm 0 0x05, []) ∧
  decode [0x23, 0x00] = .ok (.call 0x300, []) ∧ decode [0xB2, 0x10] = .ok (.jpOff 2 0x210, []) ∧
  decode [0x81, 0xF6] = .ok (.shr 1 0xF, []) ∧ decode [0xD0, 0x12] = .ok (.drw 0 1 2, []) ∧
  decode [0xE3, 0xA1] = .ok (.sknp 3, []) ∧ decode [0xF3, 0x0A] = .ok (.ldKey 3, []) ∧
  decode [0xF2, 0x55] = .ok (.stRegs 2, []) ∧ decode [0x5A, 0xB1] = .ok (.nop 0x5AB1, [])

/-! ### The step cycle (40_step_cycle.md) -/

/-- 40_step_cycle.md section 1: when the machine is running, `Step(key, rnd)` reads the two bytes at `pc`, high byte first,
decodes them and executes the instruction with `key` and `rnd` as its arguments; the status given back is `Continue`, or
`Fatal` of the fault the instruction raised. That the coming operations stand in `ops`, and that a `Step` with free
arguments comes when none stands there, is the model's choice (log entries 1, 2). -/
def Obligations.StepRunsDecodedInstruction : Prop :=
  ∀ (s : State) (key : Option Nibble) (rnd : Byte) (s' t : State) (i : Instr),
    s.fault = none → s.pc.toNat ≤ 0xFFE →
    ((∃ rest, s.ops = .step key rnd :: rest ∧ s' = { s with ops := rest, key := key, rnd := rnd }) ∨
      (s.ops = [] ∧ key = Config.freeKey s.inputNo ∧ rnd = Config.freeRnd s.inputNo ∧
        s' = { s with inputNo := s.inputNo + 1, key := key, rnd := rnd })) →
    decodeWord (s.memByte s.pc.toNat ++ s.memByte (s.pc.toNat + 1)) = i → i.wf = true →
    exec i s' = .next t →
    step s = .next { t with
      reply := match t.fault with
        | none => .status .continues
        | some c => .status (.fatal c) }

/-- 40_step_cycle.md section 1, 92_eei_decisions.md D11, D12, D22: a faulted machine answers a `Step` with `Fatal` of its
fault, a machine past the end of memory with `EndOfMemory`, and neither changes anything else; the fault is tested first. -/
def Obligations.StoppedStepChangesNothing : Prop :=
  ∀ (s : State) (key : Option Nibble) (rnd : Byte),
    (∀ c, s.fault = some c → perform (.step key rnd) s = .next { s with reply := .status (.fatal c) }) ∧
    (s.fault = none → s.pc.toNat > 0xFFE → perform (.step key rnd) s = .next { s with reply := .status .endOfMemory })

/-- 93_implementation_defined.md ("every operation is a total function of the state and its arguments"): a step always
answers a next state, whatever the state. -/
def Obligations.StepAlwaysAnswers : Prop := ∀ s : State, ∃ t, step s = .next t

/-- Model's choice (log entry 9): the word that `withFetchWord` places is the word the next step fetches and executes, as
the next operation of the host and with no fault or end of memory in the way. -/
def Obligations.PlacedWordIsFetched : Prop :=
  ∀ (s : State) (w : Word), s.mem.wf →
    (s.withFetchWord 16 w.toNat).fetchWord = w ∧ (s.withFetchWord 16 w.toNat).runState = .running ∧
      (s.withFetchWord 16 w.toNat).nextOp.1.isStep = true

/-- R96: every unrecognised word is a `NOP`, which advances `pc` by 2 and changes nothing else. -/
def Obligations.NopOnlyAdvances : Prop :=
  ∀ (w : Word) (s : State), unrecognised w = true →
    decodeWord w = .nop w ∧ exec (.nop w) s = .next { s with pc := s.pc + 2 }

/-! ### Memory (20_memory.md) -/

/-- 20_memory.md section 6: a store is seen by the next fetch. `FX55` at `I = pc + 2` with `X >= 1` replaces the word that
is fetched after it by `V[0]`, `V[1]`. -/
def Obligations.FetchSeesStore : Prop :=
  ∀ (s : State) (x : Nibble), s.mem.wf → s.pc.toNat ≤ 0xFFC → s.idx.toNat = s.pc.toNat + 2 → 1 ≤ x.toNat →
    s.idx.toNat + x.toNat ≤ 4095 →
    ∃ t, exec (.stRegs x) s = .next t ∧ t.fetchWord = s.readV 0 ++ s.readV 1

/-- 20_memory.md section 7, 92_eei_decisions.md D19: `Load` writes all its bytes, and nothing but memory, or, when they
would pass the end of memory, nothing at all and answers `LoadError`. -/
def Obligations.LoadIsAllOrNothing : Prop :=
  ∀ (s : State) (base : Nat) (bytes : List Byte), s.mem.wf →
    (base + bytes.length ≤ 4096 →
      ∃ t, perform (.load base bytes) s = .next t ∧ t.reply = .loadOk ∧ t.pc = s.pc ∧
        (∀ k (h : k < bytes.length), t.memByte (base + k) = bytes[k]) ∧
        (∀ a, (a < base ∨ base + bytes.length ≤ a) → t.memByte a = s.memByte a) ∧
        t = { s with mem := t.mem, reply := .loadOk }) ∧
    (4096 < base + bytes.length → perform (.load base bytes) s = .next { s with reply := .loadError })

/-! ### Control transfer (41_flow.md) -/

/-- R100: `00EE` pops the stack into `pc`; on an empty stack StackUnderflow, and nothing changes but `fault`. -/
def Obligations.ReturnPopsStack : Prop :=
  decodeWord 0x00EE = .ret ∧
  ∀ s : State,
    (∀ w rest, s.stack = w :: rest → exec .ret s = .next { s with pc := w, stack := rest }) ∧
    (s.stack = [] → exec .ret s = .next { s with fault := some .stackUnderflow })

/-- R101: `1NNN` sets `pc` to `NNN`, any value, and changes nothing else. -/
def Obligations.JumpSetsPc : Prop :=
  ∀ (nnn : Addr) (s : State),
    decodeWord (0x1#4 ++ nnn) = .jp nnn ∧
    ∃ t, exec (.jp nnn) s = .next t ∧ t.pc.toNat = nnn.toNat ∧ ChangesOnly (fun l => l = .pc) s t

/-- 41_flow.md (`2NNN`), 92_eei_decisions.md D3: `CALL` pushes `pc + 2` and jumps when the stack has room; on a full stack
StackOverflow, and nothing changes but `fault`. That a stack longer than its depth, which no run reaches, counts as full
is the model's choice (log entry 8). -/
def Obligations.CallPushesReturnAddress : Prop :=
  ∀ (nnn : Addr) (s : State),
    decodeWord (0x2#4 ++ nnn) = .call nnn ∧
    (s.stack.length < s.params.stackDepth →
      ∃ t, exec (.call nnn) s = .next t ∧ t.stack = (s.pc + 2) :: s.stack ∧ t.pc.toNat = nnn.toNat ∧
        ChangesOnly (fun l => l = .pc ∨ l = .stack) s t) ∧
    (s.params.stackDepth ≤ s.stack.length → exec (.call nnn) s = .next { s with fault := some .stackOverflow })

/-- 41_flow.md (`BXNN`), 92_eei_decisions.md D8, D21: `pc` becomes `NNN + V[X]`, `X` the top nibble of `NNN` (or `NNN + V[0]`
when `JUMP_USES_V0`), not reduced modulo 4096, and nothing else changes. -/
def Obligations.OffsetJumpAddsRegister : Prop :=
  ∀ (nnn : Addr) (s : State),
    decodeWord (0xB#4 ++ nnn) = .jpOff (nnn.extractLsb' 8 4) nnn ∧
    ∀ x : Nibble, ∃ t, exec (.jpOff x nnn) s = .next t ∧
      t.pc.toNat = nnn.toNat + (s.readV (if s.params.jumpUsesV0 then 0x0 else x)).toNat ∧
      ChangesOnly (fun l => l = .pc) s t

/-- 41_flow.md (call and return compose): a `CALL` at `a` with room on the stack, then any execution that leaves the stack
as the `CALL` left it, then `RET`: `pc` is `a + 2` and the stack what it was before the `CALL`. -/
def Obligations.CallThenReturnResumes : Prop :=
  ∀ (nnn : Addr) (s : State), s.stack.length < s.params.stackDepth →
    ∃ t, exec (.call nnn) s = .next t ∧
      ∀ u : State, u.stack = t.stack →
        ∃ r, exec .ret u = .next r ∧ r.pc = s.pc + 2 ∧ r.stack = s.stack ∧
          ChangesOnly (fun l => l = .pc ∨ l = .stack) u r

/-! ### Conditional skips (42_skip.md) -/

/-- R110, R111: `3XNN` skips when `V[X] = NN`, `4XNN` when not; only `pc` changes. -/
def Obligations.SkipOnImmediate : Prop :=
  ∀ (x : Nibble) (nn : Byte) (s : State),
    decodeWord (0x3#4 ++ x ++ nn) = .seImm x nn ∧ decodeWord (0x4#4 ++ x ++ nn) = .sneImm x nn ∧
    (s.readV x = nn → exec (.seImm x nn) s = .next { s with pc := s.pc + 4 } ∧
      exec (.sneImm x nn) s = .next { s with pc := s.pc + 2 }) ∧
    (s.readV x ≠ nn → exec (.seImm x nn) s = .next { s with pc := s.pc + 2 } ∧
      exec (.sneImm x nn) s = .next { s with pc := s.pc + 4 })

/-- R112, R113: `5XY0` skips when `V[X] = V[Y]`, `9XY0` when not; only `pc` changes. The words with another low nibble are
not these instructions (and are `NOP`s). -/
def Obligations.SkipOnRegisters : Prop :=
  ∀ (x y : Nibble) (s : State),
    decodeWord (0x5#4 ++ x ++ y ++ 0x0#4) = .seReg x y ∧ decodeWord (0x9#4 ++ x ++ y ++ 0x0#4) = .sneReg x y ∧
    (∀ n : Nibble, n ≠ 0 → decodeWord (0x5#4 ++ x ++ y ++ n) = .nop (0x5#4 ++ x ++ y ++ n) ∧
      decodeWord (0x9#4 ++ x ++ y ++ n) = .nop (0x9#4 ++ x ++ y ++ n)) ∧
    (s.readV x = s.readV y → exec (.seReg x y) s = .next { s with pc := s.pc + 4 } ∧
      exec (.sneReg x y) s = .next { s with pc := s.pc + 2 }) ∧
    (s.readV x ≠ s.readV y → exec (.seReg x y) s = .next { s with pc := s.pc + 2 } ∧
      exec (.sneReg x y) s = .next { s with pc := s.pc + 4 })

/-- 42_skip.md (`EX9E`, `EXA1`), 92_eei_decisions.md D15: `EX9E` skips exactly when a key is pressed and its value is the
whole 8-bit `V[X]`, `EXA1` exactly when not, so one of the two skips; no key, or `V[X] > 15`, is never a match. -/
def Obligations.SkipOnKey : Prop :=
  ∀ (x : Nibble) (s : State),
    decodeWord (0xE#4 ++ x ++ 0x9E#8) = .skp x ∧ decodeWord (0xE#4 ++ x ++ 0xA1#8) = .sknp x ∧
    (∀ k, s.key = some k → k.toNat = (s.readV x).toNat →
      exec (.skp x) s = .next { s with pc := s.pc + 4 } ∧ exec (.sknp x) s = .next { s with pc := s.pc + 2 }) ∧
    ((s.key = none ∨ (s.readV x).toNat > 15 ∨ ∃ k, s.key = some k ∧ k.toNat ≠ (s.readV x).toNat) →
      exec (.skp x) s = .next { s with pc := s.pc + 2 } ∧ exec (.sknp x) s = .next { s with pc := s.pc + 4 })

/-! ### Register load, arithmetic and logic (43_alu.md) -/

/-- R122: `6XNN` loads `NN` into `V[X]`; nothing else changes but `pc`, which advances by 2. -/
def Obligations.LoadImmediate : Prop :=
  ∀ (x : Nibble) (nn : Byte) (s : State),
    decodeWord (0x6#4 ++ x ++ nn) = .ldImm x nn ∧
    ∃ t, exec (.ldImm x nn) s = .next t ∧ t.readV x = nn ∧ t.pc = s.pc + 2 ∧
      ChangesOnly (fun l => l = .pc ∨ l = .reg x) s t

/-- R123: `7XNN` adds `NN` to `V[X]` modulo 256 with no flag: no register but `V[X]` changes. -/
def Obligations.AddImmediateWrapsWithoutFlag : Prop :=
  ∀ (x : Nibble) (nn : Byte) (s : State),
    decodeWord (0x7#4 ++ x ++ nn) = .addImm x nn ∧
    ∃ t, exec (.addImm x nn) s = .next t ∧ (t.readV x).toNat = ((s.readV x).toNat + nn.toNat) % 256 ∧
      t.pc = s.pc + 2 ∧ ChangesOnly (fun l => l = .pc ∨ l = .reg x) s t

/-- R124: `8XY0` copies `V[Y]` to `V[X]`; nothing else changes but `pc`. -/
def Obligations.CopyRegister : Prop :=
  ∀ (x y : Nibble) (s : State),
    decodeWord (0x8#4 ++ x ++ y ++ 0x0#4) = .ldReg x y ∧
    ∃ t, exec (.ldReg x y) s = .next t ∧ t.readV x = s.readV y ∧ t.pc = s.pc + 2 ∧
      ChangesOnly (fun l => l = .pc ∨ l = .reg x) s t

/-- 43_alu.md (`8XY1`, `8XY2`, `8XY3`), 92_eei_decisions.md D14: or, and, exclusive or, bit by bit, with no flag: no register
but `V[X]` changes. -/
def Obligations.LogicWritesNoFlag : Prop :=
  ∀ (x y : Nibble) (s : State) (i : Instr) (f : Bool → Bool → Bool),
    ((i = .orReg x y ∧ f = (fun a b => a || b) ∧ decodeWord (0x8#4 ++ x ++ y ++ 0x1#4) = i) ∨
      (i = .andReg x y ∧ f = (fun a b => a && b) ∧ decodeWord (0x8#4 ++ x ++ y ++ 0x2#4) = i) ∨
      (i = .xorReg x y ∧ f = (fun a b => a != b) ∧ decodeWord (0x8#4 ++ x ++ y ++ 0x3#4) = i)) →
    ∃ t, exec i s = .next t ∧
      (∀ k, k < 8 → (t.readV x).getLsbD k = f ((s.readV x).getLsbD k) ((s.readV y).getLsbD k)) ∧
      t.pc = s.pc + 2 ∧ ChangesOnly (fun l => l = .pc ∨ l = .reg x) s t

/-- 43_alu.md sections 1, 3 (`8XY4`), 92_eei_decisions.md D9: `V[X]` gets the sum modulo 256, `VF` the carry, written last, so
that `VF` holds the carry for `X = 0xF` too; operands are read before the writes; no carry in. -/
def Obligations.AddSetsCarry : Prop :=
  ∀ (x y : Nibble) (s : State),
    decodeWord (0x8#4 ++ x ++ y ++ 0x4#4) = .addReg x y ∧
    ∃ t, exec (.addReg x y) s = .next t ∧
      (x ≠ 0xF#4 → (t.readV x).toNat = ((s.readV x).toNat + (s.readV y).toNat) % 256) ∧
      t.readV 0xF#4 = (if (s.readV x).toNat + (s.readV y).toNat > 255 then 1 else 0) ∧
      t.pc = s.pc + 2 ∧ ChangesOnly (fun l => l = .pc ∨ l = .reg x ∨ l = .reg 0xF#4) s t

/-- 43_alu.md sections 1, 3 (`8XY5`, `8XY7`), 92_eei_decisions.md D9: the difference modulo 256, and `VF` 1 exactly when there
is no borrow, written last. -/
def Obligations.SubtractSetsNotBorrow : Prop :=
  ∀ (x y : Nibble) (s : State),
    decodeWord (0x8#4 ++ x ++ y ++ 0x5#4) = .sub x y ∧ decodeWord (0x8#4 ++ x ++ y ++ 0x7#4) = .subn x y ∧
    (∃ t, exec (.sub x y) s = .next t ∧
      (x ≠ 0xF#4 → (t.readV x).toNat = ((s.readV x).toNat + 256 - (s.readV y).toNat) % 256) ∧
      t.readV 0xF#4 = (if (s.readV x).toNat ≥ (s.readV y).toNat then 1 else 0) ∧
      t.pc = s.pc + 2 ∧ ChangesOnly (fun l => l = .pc ∨ l = .reg x ∨ l = .reg 0xF#4) s t) ∧
    (∃ t, exec (.subn x y) s = .next t ∧
      (x ≠ 0xF#4 → (t.readV x).toNat = ((s.readV y).toNat + 256 - (s.readV x).toNat) % 256) ∧
      t.readV 0xF#4 = (if (s.readV y).toNat ≥ (s.readV x).toNat then 1 else 0) ∧
      t.pc = s.pc + 2 ∧ ChangesOnly (fun l => l = .pc ∨ l = .reg x ∨ l = .reg 0xF#4) s t)

/-- 43_alu.md sections 1, 3 (`8XY6`, `8XYE`), 92_eei_decisions.md D9, D13: `V[X]` is shifted by one bit in place, whatever `Y`
is, and `VF` gets the bit shifted out, written last. -/
def Obligations.ShiftsSetBitOut : Prop :=
  ∀ (x y : Nibble) (s : State),
    decodeWord (0x8#4 ++ x ++ y ++ 0x6#4) = .shr x y ∧ decodeWord (0x8#4 ++ x ++ y ++ 0xE#4) = .shl x y ∧
    (∃ t, exec (.shr x y) s = .next t ∧
      (x ≠ 0xF#4 → (t.readV x).toNat = (s.readV x).toNat / 2) ∧
      (t.readV 0xF#4).toNat = (s.readV x).toNat % 2 ∧
      t.pc = s.pc + 2 ∧ ChangesOnly (fun l => l = .pc ∨ l = .reg x ∨ l = .reg 0xF#4) s t) ∧
    (∃ t, exec (.shl x y) s = .next t ∧
      (x ≠ 0xF#4 → (t.readV x).toNat = 2 * (s.readV x).toNat % 256) ∧
      t.readV 0xF#4 = (if (s.readV x).toNat ≥ 128 then 1 else 0) ∧
      t.pc = s.pc + 2 ∧ ChangesOnly (fun l => l = .pc ∨ l = .reg x ∨ l = .reg 0xF#4) s t)

/-- 43_alu.md section 4, 92_eei_decisions.md D16: `CXNN` stores the `Step`'s random byte AND `NN`, for every random byte. -/
def Obligations.RandomIsMasked : Prop :=
  ∀ (x : Nibble) (nn : Byte) (s : State),
    decodeWord (0xC#4 ++ x ++ nn) = .rnd x nn ∧
    ∃ t, exec (.rnd x nn) s = .next t ∧
      (∀ k, k < 8 → (t.readV x).getLsbD k = (s.rnd.getLsbD k && nn.getLsbD k)) ∧
      t.pc = s.pc + 2 ∧ ChangesOnly (fun l => l = .pc ∨ l = .reg x) s t

/-! ### Index register and memory transfer (44_index_memory.md) -/

/-- R140: `ANNN` sets `I` to `NNN`; nothing else changes but `pc`. -/
def Obligations.LoadIndex : Prop :=
  ∀ (nnn : Addr) (s : State),
    decodeWord (0xA#4 ++ nnn) = .ldI nnn ∧
    ∃ t, exec (.ldI nnn) s = .next t ∧ t.idx.toNat = nnn.toNat ∧ t.pc = s.pc + 2 ∧
      ChangesOnly (fun l => l = .pc ∨ l = .idx) s t

/-- 44_index_memory.md (`FX1E`), 92_eei_decisions.md D14: `I + V[X]` modulo 65536, with no flag. -/
def Obligations.AddIndexWrapsAtSixteenBits : Prop :=
  ∀ (x : Nibble) (s : State),
    decodeWord (0xF#4 ++ x ++ 0x1E#8) = .addI x ∧
    ∃ t, exec (.addI x) s = .next t ∧ t.idx.toNat = (s.idx.toNat + (s.readV x).toNat) % 65536 ∧ t.pc = s.pc + 2 ∧
      ChangesOnly (fun l => l = .pc ∨ l = .idx) s t

/-- 44_index_memory.md (`FX29`), 92_eei_decisions.md D5, D6: `I` becomes `FONT_BASE + 5 * V[X]`, for every `FONT_BASE`; a
value above 15 raises FontDigitRange, and nothing changes but `fault`. -/
def Obligations.FontSpriteAddress : Prop :=
  ∀ (x : Nibble) (s : State),
    decodeWord (0xF#4 ++ x ++ 0x29#8) = .ldFont x ∧
    ((s.readV x).toNat ≤ 15 →
      ∃ t, exec (.ldFont x) s = .next t ∧ t.idx.toNat = s.params.fontBase.val + 5 * (s.readV x).toNat ∧
        t.pc = s.pc + 2 ∧ ChangesOnly (fun l => l = .pc ∨ l = .idx) s t) ∧
    (15 < (s.readV x).toNat → exec (.ldFont x) s = .next { s with fault := some .fontDigitRange })

/-- 44_index_memory.md (`FX33`), 92_eei_decisions.md D4, D14: the three decimal digits, one a byte, hundreds at `I`; when the
last address is above 4095 MemRange, and nothing changes but `fault`. -/
def Obligations.BcdStoresThreeDigits : Prop :=
  ∀ (x : Nibble) (s : State), s.mem.wf →
    decodeWord (0xF#4 ++ x ++ 0x33#8) = .ldBcd x ∧
    (s.idx.toNat + 2 ≤ 4095 →
      ∃ t, exec (.ldBcd x) s = .next t ∧
        (t.memByte s.idx.toNat).toNat = (s.readV x).toNat / 100 ∧
        (t.memByte (s.idx.toNat + 1)).toNat = (s.readV x).toNat / 10 % 10 ∧
        (t.memByte (s.idx.toNat + 2)).toNat = (s.readV x).toNat % 10 ∧
        t.pc = s.pc + 2 ∧ ChangesOnly (fun l => l = .pc ∨ ∃ k, k ≤ 2 ∧ l = .byte (s.idx.toNat + k)) s t) ∧
    (4095 < s.idx.toNat + 2 → exec (.ldBcd x) s = .next { s with fault := some .memRange })

/-- 44_index_memory.md (`FX55`), 92_eei_decisions.md D4: `V[0]`..`V[X]` go to `I`..`I + X`, `I` and the registers stay; when
the last address is above 4095 MemRange, and nothing changes but `fault`. -/
def Obligations.StoreRegistersAscending : Prop :=
  ∀ (x : Nibble) (s : State), s.mem.wf →
    decodeWord (0xF#4 ++ x ++ 0x55#8) = .stRegs x ∧
    (s.idx.toNat + x.toNat ≤ 4095 →
      ∃ t, exec (.stRegs x) s = .next t ∧
        (∀ r : Nibble, r.toNat ≤ x.toNat → t.memByte (s.idx.toNat + r.toNat) = s.readV r) ∧
        t.pc = s.pc + 2 ∧ ChangesOnly (fun l => l = .pc ∨ ∃ k, k ≤ x.toNat ∧ l = .byte (s.idx.toNat + k)) s t) ∧
    (4095 < s.idx.toNat + x.toNat → exec (.stRegs x) s = .next { s with fault := some .memRange })

/-- 44_index_memory.md (`FX65`), 92_eei_decisions.md D4, D14: `V[0]`..`V[X]` come from `I`..`I + X`, the registers above `V[X]`
and `I` stay; when the last address is above 4095 MemRange, and nothing changes but `fault`. -/
def Obligations.LoadRegistersAscending : Prop :=
  ∀ (x : Nibble) (s : State),
    decodeWord (0xF#4 ++ x ++ 0x65#8) = .ldRegs x ∧
    (s.idx.toNat + x.toNat ≤ 4095 →
      ∃ t, exec (.ldRegs x) s = .next t ∧
        (∀ r : Nibble, r.toNat ≤ x.toNat → t.readV r = s.memByte (s.idx.toNat + r.toNat)) ∧
        t.pc = s.pc + 2 ∧ ChangesOnly (fun l => l = .pc ∨ ∃ r : Nibble, r.toNat ≤ x.toNat ∧ l = .reg r) s t) ∧
    (4095 < s.idx.toNat + x.toNat → exec (.ldRegs x) s = .next { s with fault := some .memRange })

/-- 44_index_memory.md ("`FX55` followed by `FX65` with the same `X` and `I` restores `V[0]..V[X]`"): whatever the registers
and `pc` became in between, with memory and `I` as the store left them. -/
def Obligations.StoreThenLoadRestores : Prop :=
  ∀ (x : Nibble) (s : State), s.mem.wf → s.idx.toNat + x.toNat ≤ 4095 →
    ∃ t, exec (.stRegs x) s = .next t ∧
      ∀ u : State, u.mem = t.mem → u.idx = t.idx →
        ∃ r, exec (.ldRegs x) u = .next r ∧ ∀ y : Nibble, y.toNat ≤ x.toNat → r.readV y = s.readV y

/-! ### Display (45_display.md) -/

/-- 45_display.md (`00E0`), 92_eei_decisions.md D14: every cell is unlit, whatever the state before; nothing else changes but
`pc`, no flag. -/
def Obligations.ClearScreenUnlightsAll : Prop :=
  decodeWord 0x00E0 = .cls ∧
  ∀ s : State, ∃ t, exec .cls s = .next t ∧ (∀ y x, t.cell y x = false) ∧ t.pc = s.pc + 2 ∧
    ChangesOnly (fun l => l = .pc ∨ ∃ y x, l = .cell y x) s t

/-- 45_display.md (geometry and net effect), 92_eei_decisions.md D4, D18: when the rows on the screen lie in memory, `DXYN`
toggles exactly the cells that a lit on-screen bit of the sprite targets; no register but `VF` changes. -/
def Obligations.DrawTogglesSprite : Prop :=
  ∀ (x y n : Nibble) (s : State),
    decodeWord (0xD#4 ++ x ++ y ++ n) = .drw x y n ∧
    ((s.rowsOnScreen y n = 0 ∨ s.idx.toNat + s.rowsOnScreen y n - 1 ≤ 4095) →
      ∃ t, exec (.drw x y n) s = .next t ∧
        (∀ cy cx, t.cell cy cx = (s.cell cy cx != s.spriteLit x y n cy cx)) ∧
        t.pc = s.pc + 2 ∧ ChangesOnly (fun l => l = .pc ∨ l = .reg 0xF#4 ∨ ∃ cy cx, l = .cell cy cx) s t)

/-- 45_display.md (`DXYN`, flags), 93_implementation_defined.md U9: `VF` is the collision of the LAST lit on-screen bit in scan
order, against the cell as it was before the instruction; without a lit on-screen bit `VF` keeps its value. -/
def Obligations.DrawFlagIsLastCollision : Prop :=
  ∀ (x y n : Nibble) (s t : State), faultOf (.drw x y n) s = none → exec (.drw x y n) s = .next t →
    (∀ cy cx, s.spriteLit x y n cy cx = true →
      (∀ dy dx, s.spriteLit x y n dy dx = true → ¬ scanBefore (cy, cx) (dy, dx)) →
      t.readV 0xF#4 = (if s.cell cy cx then 1 else 0)) ∧
    ((∀ cy cx, s.spriteLit x y n cy cx = false) → t.readV 0xF#4 = s.readV 0xF#4)

/-- 45_display.md (net effect), 90_conflicts.md C7: drawing the same sprite twice at the same coordinates restores the screen;
and when it has a lit bit on the screen and all its cells were unlit, the second draw leaves `VF = 1`. -/
def Obligations.DrawTwiceRestoresScreen : Prop :=
  ∀ (x y n : Nibble) (s t u : State),
    exec (.drw x y n) s = .next t → t.readV x = s.readV x → t.readV y = s.readV y →
    exec (.drw x y n) t = .next u →
    (∀ cy cx, u.cell cy cx = s.cell cy cx) ∧
    (faultOf (.drw x y n) s = none → (∃ cy cx, s.spriteLit x y n cy cx = true) →
      (∀ cy cx, s.spriteLit x y n cy cx = true → s.cell cy cx = false) → u.readV 0xF#4 = 1)

/-- R154: the framebuffer is mutated only by the clear-screen and draw-sprite instructions: no other instruction, and neither
`Tick` nor `Load`, changes a cell. -/
def Obligations.NothingElseDraws : Prop :=
  (∀ (i : Instr) (s t : State), i ≠ .cls → (∀ x y n, i ≠ .drw x y n) → exec i s = .next t →
    ∀ y x, t.cell y x = s.cell y x) ∧
  (∀ (s t : State), perform .tick s = .next t → ∀ y x, t.cell y x = s.cell y x) ∧
  (∀ (base : Nat) (bytes : List Byte) (s t : State), perform (.load base bytes) s = .next t →
    ∀ y x, t.cell y x = s.cell y x)

/-! ### Timers and keypad (46_timer_key.md, 60_exceptions.md) -/

/-- R160: `FX07` copies `DT` to `V[X]`; `DT` and the rest stay, `pc` advances. -/
def Obligations.ReadDelayTimer : Prop :=
  ∀ (x : Nibble) (s : State),
    decodeWord (0xF#4 ++ x ++ 0x07#8) = .ldFromDt x ∧
    ∃ t, exec (.ldFromDt x) s = .next t ∧ t.readV x = s.dt ∧ t.pc = s.pc + 2 ∧
      ChangesOnly (fun l => l = .pc ∨ l = .reg x) s t

/-- 46_timer_key.md (`FX0A`), 92_eei_decisions.md D15: without a key nothing changes, `pc` included; with one, pressed before or
not, `V[X]` takes its value and `pc` advances. -/
def Obligations.WaitForKey : Prop :=
  ∀ (x : Nibble) (s : State),
    decodeWord (0xF#4 ++ x ++ 0x0A#8) = .ldKey x ∧
    (s.key = none → exec (.ldKey x) s = .next s) ∧
    (∀ k, s.key = some k →
      ∃ t, exec (.ldKey x) s = .next t ∧ (t.readV x).toNat = k.toNat ∧ t.pc = s.pc + 2 ∧
        ChangesOnly (fun l => l = .pc ∨ l = .reg x) s t)

/-- R162: `FX15` copies `V[X]` to `DT`; nothing else changes but `pc`. -/
def Obligations.SetDelayTimer : Prop :=
  ∀ (x : Nibble) (s : State),
    decodeWord (0xF#4 ++ x ++ 0x15#8) = .ldDt x ∧
    ∃ t, exec (.ldDt x) s = .next t ∧ t.dt = s.readV x ∧ t.pc = s.pc + 2 ∧
      ChangesOnly (fun l => l = .pc ∨ l = .dt) s t

/-- R163: `FX18` copies `V[X]` to `ST`; nothing else changes but `pc`; the tone is on, from then until that many `Tick`s have
passed. -/
def Obligations.SetSoundTimer : Prop :=
  ∀ (x : Nibble) (s : State),
    decodeWord (0xF#4 ++ x ++ 0x18#8) = .ldSt x ∧
    ∃ t, exec (.ldSt x) s = .next t ∧ t.st = s.readV x ∧ t.pc = s.pc + 2 ∧
      ChangesOnly (fun l => l = .pc ∨ l = .st) s t ∧
      ∀ k, (State.tick^[k] t).soundOn = true ↔ k < (s.readV x).toNat

/-- 60_exceptions.md section 7, 92_eei_decisions.md D17: in every run state `Tick` counts each timer down by one, floor 0, and
changes nothing else of the machine. -/
def Obligations.TickCountsBothTimersDown : Prop :=
  ∀ s : State, ∃ t, perform .tick s = .next t ∧ t.dt.toNat = s.dt.toNat - 1 ∧ t.st.toNat = s.st.toNat - 1 ∧
    t = { s with dt := t.dt, st := t.st, reply := .nothing }

/-- 60_exceptions.md section 7 ("reads 0 after exactly `v` `Tick`s"): after `k` `Tick`s and nothing else a timer holds what it
held less `k`, floor 0, so it reads 0 exactly when `k` is at least what it held. -/
def Obligations.TimersReachZeroAfterThatManyTicks : Prop :=
  ∀ (k : Nat) (s : State),
    (State.tick^[k] s).dt.toNat = s.dt.toNat - k ∧ (State.tick^[k] s).st.toNat = s.st.toNat - k ∧
    ((State.tick^[k] s).dt = 0 ↔ s.dt.toNat ≤ k) ∧ ((State.tick^[k] s).st = 0 ↔ s.st.toNat ≤ k)

/-! ### Faults (20_memory.md section 4, 60_exceptions.md) -/

/-- 60_exceptions.md sections 1 and 4, 20_memory.md section 4, 92_eei_decisions.md D12: exactly in the cases of the fault
tables an instruction raises the fault they name, and then nothing changes but `fault`; in every other case it leaves
`fault` alone. The tables say StackOverflow of `SP = STACK_DEPTH`; that a stack longer than its depth, which no run
reaches, counts as full too is the model's choice (log entry 8). -/
def Obligations.FaultsArePreciseAndTabled : Prop :=
  ∀ (i : Instr) (s : State),
    (∀ c, faultOf i s = some c → exec i s = .next { s with fault := some c }) ∧
    (faultOf i s = none → ∃ t, exec i s = .next t ∧ t.fault = s.fault)

/-- 60_exceptions.md section 5, 92_eei_decisions.md D12: a faulted machine stays as it is, timers and memory apart, for any
number of the host's operations, as long as the host does not reset. -/
def Obligations.FaultedMachineStaysFaulted : Prop :=
  ∀ (k : Nat) (s t : State) (c : FaultCause), s.fault = some c → s.noResetPlanned → core.run k s = .next t →
    t.fault = some c ∧ t.pc = s.pc ∧ t.idx = s.idx ∧ t.stack = s.stack ∧
      (∀ r, t.readV r = s.readV r) ∧ (∀ y x, t.cell y x = s.cell y x)

/-- 40_step_cycle.md section 2 (`ENDED` is absorbing), 92_eei_decisions.md D11: a machine past the end of memory stays as it
is, timers and memory apart, for any number of the host's operations, as long as the host does not reset. -/
def Obligations.EndedMachineStaysEnded : Prop :=
  ∀ (k : Nat) (s t : State), s.runState = .ended → s.noResetPlanned → core.run k s = .next t →
    t.runState = .ended ∧ t.pc = s.pc ∧ t.idx = s.idx ∧ t.stack = s.stack ∧
      (∀ r, t.readV r = s.readV r) ∧ (∀ y x, t.cell y x = s.cell y x)

/-! ### Every instruction (10_state.md) -/

/-- 10_state.md sections 2 to 9: the frame of every instruction. Where it does not fault it answers a next state in which
only `pc` and the places of the spec's read and write tables differ; every other register, `I`, timer, the stack, every
other cell and EVERY other byte of memory, `fault`, the parameters and the host's side are as before. -/
def Obligations.EveryInstructionChangesOnlyItsOwn : Prop :=
  ∀ (i : Instr) (s : State), s.mem.wf → faultOf i s = none →
    ∃ t, exec i s = .next t ∧ ChangesOnly (writesOf i s) s t

/-- 10_state.md section 4 (advancement policy): for an instruction executed where `Step` executes one, at `pc <= 0xFFE`, and
not faulting, `pc` afterwards is the table's value as a natural number: it never wraps. -/
def Obligations.PcFollowsAdvancementPolicy : Prop :=
  ∀ (i : Instr) (s : State), s.pc.toNat ≤ 0xFFE → faultOf i s = none →
    ∃ t, exec i s = .next t ∧ t.pc.toNat = pcAfter i s

/-- 60_exceptions.md section 8 (the key is used only by `EX9E`, `EXA1`, `FX0A`; every other instruction ignores it). -/
def Obligations.OtherInstructionsIgnoreKey : Prop :=
  ∀ (i : Instr) (s t : State) (k : Option Nibble),
    (∀ x, i ≠ .skp x) → (∀ x, i ≠ .sknp x) → (∀ x, i ≠ .ldKey x) → exec i s = .next t →
    exec i { s with key := k } = .next { t with key := k }

/-- 43_alu.md section 4, 60_exceptions.md section 8 (`rnd` is used only by `CXNN`): every other instruction ignores it. -/
def Obligations.OtherInstructionsIgnoreRandom : Prop :=
  ∀ (i : Instr) (s t : State) (b : Byte), (∀ x nn, i ≠ .rnd x nn) → exec i s = .next t →
    exec i { s with rnd := b } = .next { t with rnd := b }

/-- 10_state.md section 6 ("No instruction reads `ST` into a register"): the sound timer's value reaches nothing but itself. -/
def Obligations.SoundTimerIsNeverRead : Prop :=
  ∀ (i : Instr) (s t : State) (b : Byte), exec i s = .next t →
    exec i { s with st := b } = .next { t with st := (match i with | .ldSt _ => t.st | _ => b) }

/-! ### Reset and the whole machine (70_reset_and_hazards.md) -/

/-- 10_state.md section 1, 70_reset_and_hazards.md section 1: what `Reset()` leaves, from any state, and what the machine
starts with. -/
def Obligations.ResetLeavesZeroedState : Prop :=
  ∀ (s t : State), (t = State.reset ∨ perform .reset s = .next t) →
    (∀ r, t.readV r = 0) ∧ t.idx = 0 ∧ t.pc = 0x200 ∧ t.dt = 0 ∧ t.st = 0 ∧ t.stack = [] ∧
      (∀ y x, t.cell y x = false) ∧ (∀ a, t.memByte a = 0) ∧ t.fault = none ∧ t.runState = .running ∧ t.soundOn = false

/-- R202: after reset no font is in memory, all of which is zero and stays so until the host loads something (what runs
there are `NOP`s); and no operation, `Reset` included, and no instruction changes the parameters. -/
def Obligations.NoFontUntilLoadedAndParametersFixed : Prop :=
  (∀ (s t : State), (t = State.reset ∨ perform .reset s = .next t) → ∀ a, t.memByte a = 0) ∧
  (∀ (s t : State), (∀ a, s.memByte a = 0) → (∀ base bytes, s.nextOp.1 ≠ .load base bytes) → step s = .next t →
    ∀ a, t.memByte a = 0) ∧
  (∀ (s t : State), step s = .next t → t.params = s.params) ∧
  (∀ (i : Instr) (s t : State), exec i s = .next t → t.params = s.params)

/-- 70_reset_and_hazards.md section 2 (boot): from any state, reset, font load and program load leave a running machine at
the entry point whose memory holds `FONT_DATA` at `FONT_BASE`, the program at 512, and zero elsewhere; a program longer
than 3584 bytes is answered with `LoadError` and none of it is written. That the operations stand in `ops` is the model's
choice (log entry 1). -/
def Obligations.BootLoadsFontAndProgram : Prop :=
  ∀ (s : State) (program : List Byte) (rest : List HostOp), s.ops = bootOps s.params program ++ rest →
    ∃ t, core.run 3 s = .next t ∧ t.ops = rest ∧ t.params = s.params ∧ t.pc = 0x200 ∧ t.runState = .running ∧
      (∀ k (h : k < 80), t.memByte (s.params.fontBase.val + k) = s.params.fontData[k]) ∧
      (program.length ≤ 3584 → t.reply = .loadOk ∧
        (∀ k (h : k < program.length), t.memByte (512 + k) = program[k]) ∧
        ∀ a, (a < s.params.fontBase.val ∨ s.params.fontBase.val + 80 ≤ a) → (a < 512 ∨ 512 + program.length ≤ a) →
          t.memByte a = 0) ∧
      (3584 < program.length → t.reply = .loadError ∧
        ∀ a, (a < s.params.fontBase.val ∨ s.params.fontBase.val + 80 ≤ a) → t.memByte a = 0)

/-- The invariant holds right after reset. -/
def Obligations.InvariantAtReset : Prop := State.reset.Inv

/-- Every step keeps the invariant, from every state that has it: canonical memory, at most `STACK_DEPTH` return addresses,
each at most 0x1000, `pc` at most 0x10FE, a faulted machine with `pc` inside memory, a `Fatal` reply that agrees with
`fault`. -/
def Obligations.StepKeepsInvariant : Prop :=
  ∀ (s t : State), s.Inv → step s = .next t → t.Inv
end

