-- ==== Sys2Proof/Laws/Memory.lean ====
section
/-! SUPPORT. Memory: a read after a write, the canonical form kept by every operation, and that a canonical memory is
determined by its reads.
-/

namespace Sys2Proof.Machine

/-- Every listed address is above `a`. -/
theorem Memory.read_of_all_above {m : Memory} {a : Nat} (h : ∀ c ∈ m, a < c.1) : m.read a = 0x00 := by
  induction m with
  | nil => rfl
  | cons c m ih =>
    have hc : a < c.1 := h c (by simp)
    simp only [Memory.read]
    rw [if_neg (by omega)]
    exact ih fun d hd => h d (by simp [hd])

/-- A read after a write, for a memory whose addresses rise strictly. -/
theorem Memory.read_write {m : Memory} (hm : m.Pairwise (fun c d => c.1 < d.1)) (a a' : Nat) (b : Byte) :
    (m.write a b).read a' = if a = a' then b else m.read a' := by
  induction m with
  | nil =>
    simp only [Memory.write]
    split <;> simp_all [Memory.read]
  | cons c m ih =>
    obtain ⟨k, v⟩ := c
    obtain ⟨hhead, htail⟩ := List.pairwise_cons.mp hm
    have hnone : ∀ x, x ≤ k → Memory.read m x = 0x00 := fun x hx =>
      Memory.read_of_all_above fun d hd => by have := hhead d hd; simp only at this; omega
    simp only [Memory.write]
    split
    · split
      · by_cases e : a = a'
        · subst e
          have := hnone a (by omega)
          rename_i hb
          subst hb
          simp [Memory.read, this, show ¬ k = a by omega]
        · simp [e]
      · by_cases e : a = a' <;> simp [Memory.read, e]
    · split
      · rename_i _ hak
        subst hak
        split
        · rename_i hb
          subst hb
          by_cases e : a = a'
          · subst e; simpa using hnone a (by omega)
          · simp [Memory.read, e]
        · by_cases e : a = a' <;> simp [Memory.read, e]
      · rename_i h1 h2
        simp only [Memory.read, ih htail]
        by_cases e : a = a'
        · subst e; simp; intro h; omega
        · simp [e]

/-- What a write lists: the new address or an old one. -/
theorem Memory.mem_write {m : Memory} {a : Nat} {b : Byte} {c : Host.Cell} (h : c ∈ m.write a b) :
    (c = (a, b) ∧ b ≠ 0x00#8) ∨ c ∈ m := by
  induction m with
  | nil =>
    simp only [Memory.write] at h
    split at h <;> simp_all
  | cons d m ih =>
    obtain ⟨k, v⟩ := d
    simp only [Memory.write] at h
    split at h
    · split at h <;> simp_all
    · split at h
      · (split at h <;> simp_all); tauto
      · rcases List.mem_cons.mp h with h | h
        · exact .inr (by simp [h])
        · rcases ih h with h | h
          · exact .inl h
          · exact .inr (by simp [h])

/-- A write keeps addresses strictly rising. -/
theorem Memory.pairwise_write {m : Memory} (hm : m.Pairwise (fun c d => c.1 < d.1)) (a : Nat) (b : Byte) :
    (m.write a b).Pairwise (fun c d => c.1 < d.1) := by
  induction m with
  | nil => simp only [Memory.write]; split <;> simp
  | cons d m ih =>
    obtain ⟨k, v⟩ := d
    obtain ⟨hhead, htail⟩ := List.pairwise_cons.mp hm
    simp only [Memory.write]
    split
    · split
      · exact hm
      · refine List.pairwise_cons.mpr ⟨fun c hc => ?_, hm⟩
        rcases List.mem_cons.mp hc with rfl | hc
        · assumption
        · exact Nat.lt_trans ‹a < k› (hhead c hc)
    · split
      · rename_i _ hak
        split
        · exact htail
        · exact List.pairwise_cons.mpr ⟨fun c hc => by rw [hak]; exact hhead c hc, htail⟩
      · refine List.pairwise_cons.mpr ⟨fun c hc => ?_, ih htail⟩
        rcases Memory.mem_write hc with ⟨rfl, _⟩ | hc
        · show k < a; omega
        · exact hhead c hc

/-- Memory after reset is canonical. -/
theorem Memory.wf_nil : Memory.wf [] := ⟨List.Pairwise.nil, fun _ h => absurd h List.not_mem_nil⟩

/-- A write inside memory keeps the canonical form. -/
theorem Memory.wf_write {m : Memory} (hm : m.wf) {a : Nat} (ha : a < Config.memSize) (b : Byte) : (m.write a b).wf := by
  refine ⟨Memory.pairwise_write hm.1 a b, fun c hc => ?_⟩
  rcases Memory.mem_write hc with ⟨rfl, hb⟩ | hc
  · exact ⟨ha, hb⟩
  · exact hm.2 c hc

/-- A run of writes keeps addresses strictly rising. -/
theorem Memory.pairwise_writeBytes {m : Memory} (hm : m.Pairwise (fun c d => c.1 < d.1)) (a : Nat) (bs : List Byte) :
    (m.writeBytes a bs).Pairwise (fun c d => c.1 < d.1) := by
  induction bs generalizing m a with
  | nil => exact hm
  | cons b bs ih => exact ih (Memory.pairwise_write hm a b) (a + 1)

/-- A run of writes inside memory keeps the canonical form. -/
theorem Memory.wf_writeBytes {m : Memory} (hm : m.wf) {a : Nat} {bs : List Byte} (h : a + bs.length ≤ Config.memSize) :
    (m.writeBytes a bs).wf := by
  induction bs generalizing m a with
  | nil => exact hm
  | cons b bs ih =>
    simp only [List.length_cons] at h
    exact ih (Memory.wf_write hm (by omega) b) (by omega)

/-- A read after a run of writes: the byte that was put there, else the old one. -/
theorem Memory.read_writeBytes {m : Memory} (hm : m.Pairwise (fun c d => c.1 < d.1)) (a a' : Nat) (bs : List Byte) :
    (m.writeBytes a bs).read a' = if h : a ≤ a' ∧ a' < a + bs.length then bs[a' - a] else m.read a' := by
  induction bs generalizing m a with
  | nil => simp only [Memory.writeBytes, List.length_nil]; rw [dif_neg (by omega)]
  | cons b bs ih =>
    simp only [Memory.writeBytes, ih (Memory.pairwise_write hm a b), Memory.read_write hm, List.length_cons]
    by_cases h1 : a + 1 ≤ a' ∧ a' < a + 1 + bs.length
    · rw [dif_pos h1, dif_pos (by omega)]
      obtain ⟨j, rfl⟩ : ∃ j, a' = a + 1 + j := ⟨a' - (a + 1), by omega⟩
      simp [show a + 1 + j - (a + 1) = j by omega, show a + 1 + j - a = j + 1 by omega]
    · rw [dif_neg h1]
      by_cases h2 : a = a'
      · subst h2; simp
      · rw [if_neg h2, dif_neg (by omega)]

/-- How many bytes a run of reads gives. -/
@[simp] theorem Memory.length_readBytes (m : Memory) (a n : Nat) : (m.readBytes a n).length = n := by
  induction n generalizing a with
  | zero => rfl
  | succ n ih => simp [Memory.readBytes, ih]

/-- The `k`-th byte of a run of reads. -/
theorem Memory.getElem_readBytes (m : Memory) (a n k : Nat) (h : k < (m.readBytes a n).length) :
    (m.readBytes a n)[k] = m.read (a + k) := by
  induction n generalizing a k with
  | zero => simp at h
  | succ n ih =>
    cases k with
    | zero => rfl
    | succ k =>
      simp only [Memory.readBytes, List.getElem_cons_succ]
      rw [ih]
      congr 1
      omega

/-- Canonical memories that read alike are the same list. -/
theorem Memory.ext_of_read {m m' : Memory} (hm : m.wf) (hm' : m'.wf) (h : ∀ a, m.read a = m'.read a) : m = m' := by
  induction m generalizing m' with
  | nil =>
    cases m' with
    | nil => rfl
    | cons d m' =>
      have := h d.1
      simp only [Memory.read, if_true] at this
      exact absurd this.symm (hm'.2 d (by simp)).2
  | cons c m ih =>
    cases m' with
    | nil =>
      have := h c.1
      simp only [Memory.read, if_true] at this
      exact absurd this (hm.2 c (by simp)).2
    | cons d m' =>
      obtain ⟨k, v⟩ := c
      obtain ⟨k', v'⟩ := d
      obtain ⟨hh, ht⟩ := List.pairwise_cons.mp hm.1
      obtain ⟨hh', ht'⟩ := List.pairwise_cons.mp hm'.1
      have hv : v ≠ 0x00#8 := (hm.2 (k, v) (by simp)).2
      have hv' : v' ≠ 0x00#8 := (hm'.2 (k', v') (by simp)).2
      have low : ∀ x ≤ k, Memory.read m x = 0x00 := fun x hx =>
        Memory.read_of_all_above fun e he => by have := hh e he; simp only at this; omega
      have low' : ∀ x ≤ k', Memory.read m' x = 0x00 := fun x hx =>
        Memory.read_of_all_above fun e he => by have := hh' e he; simp only at this; omega
      have hk : k = k' := by
        rcases Nat.lt_trichotomy k k' with hlt | heq | hlt
        · have := h k
          simp only [Memory.read, if_true] at this
          rw [if_neg (by omega), low' k (by omega)] at this
          exact absurd this hv
        · exact heq
        · have := (h k').symm
          simp only [Memory.read, if_true] at this
          rw [if_neg (by omega), low k' (by omega)] at this
          exact absurd this hv'
      subst hk
      have hvv : v = v' := by simpa [Memory.read] using h k
      subst hvv
      congr 1
      refine ih ⟨ht, fun e he => hm.2 e (by simp [he])⟩ ⟨ht', fun e he => hm'.2 e (by simp [he])⟩ fun a => ?_
      have ha := h a
      simp only [Memory.read] at ha
      split at ha
      · rename_i hka; rw [low a (by omega), low' a (by omega)]
      · exact ha

end Sys2Proof.Machine
end

