-- ==== Sys2Proof/Laws/State.lean ====
section
/-! SUPPORT. One lemma per field per update of the state, each by rfl, and what each update leaves of the three reads
(a register, a byte, a cell), so that no proof unfolds a record update.
-/

namespace Sys2Proof.Machine

variable (s : State)

/-! ### setMem -/

@[simp] theorem State.setMem_v (m : Memory) : (s.setMem m).v = s.v := rfl
@[simp] theorem State.setMem_idx (m : Memory) : (s.setMem m).idx = s.idx := rfl
@[simp] theorem State.setMem_pc (m : Memory) : (s.setMem m).pc = s.pc := rfl
@[simp] theorem State.setMem_dt (m : Memory) : (s.setMem m).dt = s.dt := rfl
@[simp] theorem State.setMem_st (m : Memory) : (s.setMem m).st = s.st := rfl
@[simp] theorem State.setMem_stack (m : Memory) : (s.setMem m).stack = s.stack := rfl
@[simp] theorem State.setMem_fb (m : Memory) : (s.setMem m).fb = s.fb := rfl
@[simp] theorem State.setMem_mem (m : Memory) : (s.setMem m).mem = m := rfl
@[simp] theorem State.setMem_fault (m : Memory) : (s.setMem m).fault = s.fault := rfl
@[simp] theorem State.setMem_params (m : Memory) : (s.setMem m).params = s.params := rfl
@[simp] theorem State.setMem_key (m : Memory) : (s.setMem m).key = s.key := rfl
@[simp] theorem State.setMem_rnd (m : Memory) : (s.setMem m).rnd = s.rnd := rfl
@[simp] theorem State.setMem_ops (m : Memory) : (s.setMem m).ops = s.ops := rfl
@[simp] theorem State.setMem_inputNo (m : Memory) : (s.setMem m).inputNo = s.inputNo := rfl
@[simp] theorem State.setMem_reply (m : Memory) : (s.setMem m).reply = s.reply := rfl
@[simp] theorem State.setMem_readV (m : Memory) (i : Nibble) : (s.setMem m).readV i = s.readV i := rfl
@[simp] theorem State.setMem_memByte (m : Memory) (a : Nat) : (s.setMem m).memByte a = m.read a := rfl
@[simp] theorem State.setMem_cell (m : Memory) (i : Fin 32) (j : Fin 64) : (s.setMem m).cell i j = s.cell i j := rfl

/-! ### writeV -/

@[simp] theorem State.writeV_v (x : Nibble) (b : Byte) : (s.writeV x b).v = s.v.set x.toNat b x.isLt := rfl
@[simp] theorem State.writeV_idx (x : Nibble) (b : Byte) : (s.writeV x b).idx = s.idx := rfl
@[simp] theorem State.writeV_pc (x : Nibble) (b : Byte) : (s.writeV x b).pc = s.pc := rfl
@[simp] theorem State.writeV_dt (x : Nibble) (b : Byte) : (s.writeV x b).dt = s.dt := rfl
@[simp] theorem State.writeV_st (x : Nibble) (b : Byte) : (s.writeV x b).st = s.st := rfl
@[simp] theorem State.writeV_stack (x : Nibble) (b : Byte) : (s.writeV x b).stack = s.stack := rfl
@[simp] theorem State.writeV_fb (x : Nibble) (b : Byte) : (s.writeV x b).fb = s.fb := rfl
@[simp] theorem State.writeV_mem (x : Nibble) (b : Byte) : (s.writeV x b).mem = s.mem := rfl
@[simp] theorem State.writeV_fault (x : Nibble) (b : Byte) : (s.writeV x b).fault = s.fault := rfl
@[simp] theorem State.writeV_params (x : Nibble) (b : Byte) : (s.writeV x b).params = s.params := rfl
@[simp] theorem State.writeV_key (x : Nibble) (b : Byte) : (s.writeV x b).key = s.key := rfl
@[simp] theorem State.writeV_rnd (x : Nibble) (b : Byte) : (s.writeV x b).rnd = s.rnd := rfl
@[simp] theorem State.writeV_ops (x : Nibble) (b : Byte) : (s.writeV x b).ops = s.ops := rfl
@[simp] theorem State.writeV_inputNo (x : Nibble) (b : Byte) : (s.writeV x b).inputNo = s.inputNo := rfl
@[simp] theorem State.writeV_reply (x : Nibble) (b : Byte) : (s.writeV x b).reply = s.reply := rfl
@[simp] theorem State.writeV_memByte (x : Nibble) (b : Byte) (a : Nat) : (s.writeV x b).memByte a = s.memByte a := rfl
@[simp] theorem State.writeV_cell (x : Nibble) (b : Byte) (i : Fin 32) (j : Fin 64) : (s.writeV x b).cell i j = s.cell i j := rfl

/-! ### setIdx -/

@[simp] theorem State.setIdx_v (w : Word) : (s.setIdx w).v = s.v := rfl
@[simp] theorem State.setIdx_idx (w : Word) : (s.setIdx w).idx = w := rfl
@[simp] theorem State.setIdx_pc (w : Word) : (s.setIdx w).pc = s.pc := rfl
@[simp] theorem State.setIdx_dt (w : Word) : (s.setIdx w).dt = s.dt := rfl
@[simp] theorem State.setIdx_st (w : Word) : (s.setIdx w).st = s.st := rfl
@[simp] theorem State.setIdx_stack (w : Word) : (s.setIdx w).stack = s.stack := rfl
@[simp] theorem State.setIdx_fb (w : Word) : (s.setIdx w).fb = s.fb := rfl
@[simp] theorem State.setIdx_mem (w : Word) : (s.setIdx w).mem = s.mem := rfl
@[simp] theorem State.setIdx_fault (w : Word) : (s.setIdx w).fault = s.fault := rfl
@[simp] theorem State.setIdx_params (w : Word) : (s.setIdx w).params = s.params := rfl
@[simp] theorem State.setIdx_key (w : Word) : (s.setIdx w).key = s.key := rfl
@[simp] theorem State.setIdx_rnd (w : Word) : (s.setIdx w).rnd = s.rnd := rfl
@[simp] theorem State.setIdx_ops (w : Word) : (s.setIdx w).ops = s.ops := rfl
@[simp] theorem State.setIdx_inputNo (w : Word) : (s.setIdx w).inputNo = s.inputNo := rfl
@[simp] theorem State.setIdx_reply (w : Word) : (s.setIdx w).reply = s.reply := rfl
@[simp] theorem State.setIdx_readV (w : Word) (i : Nibble) : (s.setIdx w).readV i = s.readV i := rfl
@[simp] theorem State.setIdx_memByte (w : Word) (a : Nat) : (s.setIdx w).memByte a = s.memByte a := rfl
@[simp] theorem State.setIdx_cell (w : Word) (i : Fin 32) (j : Fin 64) : (s.setIdx w).cell i j = s.cell i j := rfl

/-! ### goto -/

@[simp] theorem State.goto_v (w : Word) : (s.goto w).v = s.v := rfl
@[simp] theorem State.goto_idx (w : Word) : (s.goto w).idx = s.idx := rfl
@[simp] theorem State.goto_pc (w : Word) : (s.goto w).pc = w := rfl
@[simp] theorem State.goto_dt (w : Word) : (s.goto w).dt = s.dt := rfl
@[simp] theorem State.goto_st (w : Word) : (s.goto w).st = s.st := rfl
@[simp] theorem State.goto_stack (w : Word) : (s.goto w).stack = s.stack := rfl
@[simp] theorem State.goto_fb (w : Word) : (s.goto w).fb = s.fb := rfl
@[simp] theorem State.goto_mem (w : Word) : (s.goto w).mem = s.mem := rfl
@[simp] theorem State.goto_fault (w : Word) : (s.goto w).fault = s.fault := rfl
@[simp] theorem State.goto_params (w : Word) : (s.goto w).params = s.params := rfl
@[simp] theorem State.goto_key (w : Word) : (s.goto w).key = s.key := rfl
@[simp] theorem State.goto_rnd (w : Word) : (s.goto w).rnd = s.rnd := rfl
@[simp] theorem State.goto_ops (w : Word) : (s.goto w).ops = s.ops := rfl
@[simp] theorem State.goto_inputNo (w : Word) : (s.goto w).inputNo = s.inputNo := rfl
@[simp] theorem State.goto_reply (w : Word) : (s.goto w).reply = s.reply := rfl
@[simp] theorem State.goto_readV (w : Word) (i : Nibble) : (s.goto w).readV i = s.readV i := rfl
@[simp] theorem State.goto_memByte (w : Word) (a : Nat) : (s.goto w).memByte a = s.memByte a := rfl
@[simp] theorem State.goto_cell (w : Word) (i : Fin 32) (j : Fin 64) : (s.goto w).cell i j = s.cell i j := rfl

/-! ### advance -/

@[simp] theorem State.advance_v : (s.advance).v = s.v := rfl
@[simp] theorem State.advance_idx : (s.advance).idx = s.idx := rfl
@[simp] theorem State.advance_pc : (s.advance).pc = s.pc + 2 := rfl
@[simp] theorem State.advance_dt : (s.advance).dt = s.dt := rfl
@[simp] theorem State.advance_st : (s.advance).st = s.st := rfl
@[simp] theorem State.advance_stack : (s.advance).stack = s.stack := rfl
@[simp] theorem State.advance_fb : (s.advance).fb = s.fb := rfl
@[simp] theorem State.advance_mem : (s.advance).mem = s.mem := rfl
@[simp] theorem State.advance_fault : (s.advance).fault = s.fault := rfl
@[simp] theorem State.advance_params : (s.advance).params = s.params := rfl
@[simp] theorem State.advance_key : (s.advance).key = s.key := rfl
@[simp] theorem State.advance_rnd : (s.advance).rnd = s.rnd := rfl
@[simp] theorem State.advance_ops : (s.advance).ops = s.ops := rfl
@[simp] theorem State.advance_inputNo : (s.advance).inputNo = s.inputNo := rfl
@[simp] theorem State.advance_reply : (s.advance).reply = s.reply := rfl
@[simp] theorem State.advance_readV (i : Nibble) : (s.advance).readV i = s.readV i := rfl
@[simp] theorem State.advance_memByte (a : Nat) : (s.advance).memByte a = s.memByte a := rfl
@[simp] theorem State.advance_cell (i : Fin 32) (j : Fin 64) : (s.advance).cell i j = s.cell i j := rfl

/-! ### skipIf -/

@[simp] theorem State.skipIf_v (c : Bool) : (s.skipIf c).v = s.v := rfl
@[simp] theorem State.skipIf_idx (c : Bool) : (s.skipIf c).idx = s.idx := rfl
@[simp] theorem State.skipIf_pc (c : Bool) : (s.skipIf c).pc = if c then s.pc + 4 else s.pc + 2 := rfl
@[simp] theorem State.skipIf_dt (c : Bool) : (s.skipIf c).dt = s.dt := rfl
@[simp] theorem State.skipIf_st (c : Bool) : (s.skipIf c).st = s.st := rfl
@[simp] theorem State.skipIf_stack (c : Bool) : (s.skipIf c).stack = s.stack := rfl
@[simp] theorem State.skipIf_fb (c : Bool) : (s.skipIf c).fb = s.fb := rfl
@[simp] theorem State.skipIf_mem (c : Bool) : (s.skipIf c).mem = s.mem := rfl
@[simp] theorem State.skipIf_fault (c : Bool) : (s.skipIf c).fault = s.fault := rfl
@[simp] theorem State.skipIf_params (c : Bool) : (s.skipIf c).params = s.params := rfl
@[simp] theorem State.skipIf_key (c : Bool) : (s.skipIf c).key = s.key := rfl
@[simp] theorem State.skipIf_rnd (c : Bool) : (s.skipIf c).rnd = s.rnd := rfl
@[simp] theorem State.skipIf_ops (c : Bool) : (s.skipIf c).ops = s.ops := rfl
@[simp] theorem State.skipIf_inputNo (c : Bool) : (s.skipIf c).inputNo = s.inputNo := rfl
@[simp] theorem State.skipIf_reply (c : Bool) : (s.skipIf c).reply = s.reply := rfl
@[simp] theorem State.skipIf_readV (c : Bool) (i : Nibble) : (s.skipIf c).readV i = s.readV i := rfl
@[simp] theorem State.skipIf_memByte (c : Bool) (a : Nat) : (s.skipIf c).memByte a = s.memByte a := rfl
@[simp] theorem State.skipIf_cell (c : Bool) (i : Fin 32) (j : Fin 64) : (s.skipIf c).cell i j = s.cell i j := rfl

/-! ### setDt -/

@[simp] theorem State.setDt_v (b : Byte) : (s.setDt b).v = s.v := rfl
@[simp] theorem State.setDt_idx (b : Byte) : (s.setDt b).idx = s.idx := rfl
@[simp] theorem State.setDt_pc (b : Byte) : (s.setDt b).pc = s.pc := rfl
@[simp] theorem State.setDt_dt (b : Byte) : (s.setDt b).dt = b := rfl
@[simp] theorem State.setDt_st (b : Byte) : (s.setDt b).st = s.st := rfl
@[simp] theorem State.setDt_stack (b : Byte) : (s.setDt b).stack = s.stack := rfl
@[simp] theorem State.setDt_fb (b : Byte) : (s.setDt b).fb = s.fb := rfl
@[simp] theorem State.setDt_mem (b : Byte) : (s.setDt b).mem = s.mem := rfl
@[simp] theorem State.setDt_fault (b : Byte) : (s.setDt b).fault = s.fault := rfl
@[simp] theorem State.setDt_params (b : Byte) : (s.setDt b).params = s.params := rfl
@[simp] theorem State.setDt_key (b : Byte) : (s.setDt b).key = s.key := rfl
@[simp] theorem State.setDt_rnd (b : Byte) : (s.setDt b).rnd = s.rnd := rfl
@[simp] theorem State.setDt_ops (b : Byte) : (s.setDt b).ops = s.ops := rfl
@[simp] theorem State.setDt_inputNo (b : Byte) : (s.setDt b).inputNo = s.inputNo := rfl
@[simp] theorem State.setDt_reply (b : Byte) : (s.setDt b).reply = s.reply := rfl
@[simp] theorem State.setDt_readV (b : Byte) (i : Nibble) : (s.setDt b).readV i = s.readV i := rfl
@[simp] theorem State.setDt_memByte (b : Byte) (a : Nat) : (s.setDt b).memByte a = s.memByte a := rfl
@[simp] theorem State.setDt_cell (b : Byte) (i : Fin 32) (j : Fin 64) : (s.setDt b).cell i j = s.cell i j := rfl

/-! ### setSt -/

@[simp] theorem State.setSt_v (b : Byte) : (s.setSt b).v = s.v := rfl
@[simp] theorem State.setSt_idx (b : Byte) : (s.setSt b).idx = s.idx := rfl
@[simp] theorem State.setSt_pc (b : Byte) : (s.setSt b).pc = s.pc := rfl
@[simp] theorem State.setSt_dt (b : Byte) : (s.setSt b).dt = s.dt := rfl
@[simp] theorem State.setSt_st (b : Byte) : (s.setSt b).st = b := rfl
@[simp] theorem State.setSt_stack (b : Byte) : (s.setSt b).stack = s.stack := rfl
@[simp] theorem State.setSt_fb (b : Byte) : (s.setSt b).fb = s.fb := rfl
@[simp] theorem State.setSt_mem (b : Byte) : (s.setSt b).mem = s.mem := rfl
@[simp] theorem State.setSt_fault (b : Byte) : (s.setSt b).fault = s.fault := rfl
@[simp] theorem State.setSt_params (b : Byte) : (s.setSt b).params = s.params := rfl
@[simp] theorem State.setSt_key (b : Byte) : (s.setSt b).key = s.key := rfl
@[simp] theorem State.setSt_rnd (b : Byte) : (s.setSt b).rnd = s.rnd := rfl
@[simp] theorem State.setSt_ops (b : Byte) : (s.setSt b).ops = s.ops := rfl
@[simp] theorem State.setSt_inputNo (b : Byte) : (s.setSt b).inputNo = s.inputNo := rfl
@[simp] theorem State.setSt_reply (b : Byte) : (s.setSt b).reply = s.reply := rfl
@[simp] theorem State.setSt_readV (b : Byte) (i : Nibble) : (s.setSt b).readV i = s.readV i := rfl
@[simp] theorem State.setSt_memByte (b : Byte) (a : Nat) : (s.setSt b).memByte a = s.memByte a := rfl
@[simp] theorem State.setSt_cell (b : Byte) (i : Fin 32) (j : Fin 64) : (s.setSt b).cell i j = s.cell i j := rfl

/-! ### setStack -/

@[simp] theorem State.setStack_v (l : List Word) : (s.setStack l).v = s.v := rfl
@[simp] theorem State.setStack_idx (l : List Word) : (s.setStack l).idx = s.idx := rfl
@[simp] theorem State.setStack_pc (l : List Word) : (s.setStack l).pc = s.pc := rfl
@[simp] theorem State.setStack_dt (l : List Word) : (s.setStack l).dt = s.dt := rfl
@[simp] theorem State.setStack_st (l : List Word) : (s.setStack l).st = s.st := rfl
@[simp] theorem State.setStack_stack (l : List Word) : (s.setStack l).stack = l := rfl
@[simp] theorem State.setStack_fb (l : List Word) : (s.setStack l).fb = s.fb := rfl
@[simp] theorem State.setStack_mem (l : List Word) : (s.setStack l).mem = s.mem := rfl
@[simp] theorem State.setStack_fault (l : List Word) : (s.setStack l).fault = s.fault := rfl
@[simp] theorem State.setStack_params (l : List Word) : (s.setStack l).params = s.params := rfl
@[simp] theorem State.setStack_key (l : List Word) : (s.setStack l).key = s.key := rfl
@[simp] theorem State.setStack_rnd (l : List Word) : (s.setStack l).rnd = s.rnd := rfl
@[simp] theorem State.setStack_ops (l : List Word) : (s.setStack l).ops = s.ops := rfl
@[simp] theorem State.setStack_inputNo (l : List Word) : (s.setStack l).inputNo = s.inputNo := rfl
@[simp] theorem State.setStack_reply (l : List Word) : (s.setStack l).reply = s.reply := rfl
@[simp] theorem State.setStack_readV (l : List Word) (i : Nibble) : (s.setStack l).readV i = s.readV i := rfl
@[simp] theorem State.setStack_memByte (l : List Word) (a : Nat) : (s.setStack l).memByte a = s.memByte a := rfl
@[simp] theorem State.setStack_cell (l : List Word) (i : Fin 32) (j : Fin 64) : (s.setStack l).cell i j = s.cell i j := rfl

/-! ### push -/

@[simp] theorem State.push_v (w : Word) : (s.push w).v = s.v := rfl
@[simp] theorem State.push_idx (w : Word) : (s.push w).idx = s.idx := rfl
@[simp] theorem State.push_pc (w : Word) : (s.push w).pc = s.pc := rfl
@[simp] theorem State.push_dt (w : Word) : (s.push w).dt = s.dt := rfl
@[simp] theorem State.push_st (w : Word) : (s.push w).st = s.st := rfl
@[simp] theorem State.push_stack (w : Word) : (s.push w).stack = w :: s.stack := rfl
@[simp] theorem State.push_fb (w : Word) : (s.push w).fb = s.fb := rfl
@[simp] theorem State.push_mem (w : Word) : (s.push w).mem = s.mem := rfl
@[simp] theorem State.push_fault (w : Word) : (s.push w).fault = s.fault := rfl
@[simp] theorem State.push_params (w : Word) : (s.push w).params = s.params := rfl
@[simp] theorem State.push_key (w : Word) : (s.push w).key = s.key := rfl
@[simp] theorem State.push_rnd (w : Word) : (s.push w).rnd = s.rnd := rfl
@[simp] theorem State.push_ops (w : Word) : (s.push w).ops = s.ops := rfl
@[simp] theorem State.push_inputNo (w : Word) : (s.push w).inputNo = s.inputNo := rfl
@[simp] theorem State.push_reply (w : Word) : (s.push w).reply = s.reply := rfl
@[simp] theorem State.push_readV (w : Word) (i : Nibble) : (s.push w).readV i = s.readV i := rfl
@[simp] theorem State.push_memByte (w : Word) (a : Nat) : (s.push w).memByte a = s.memByte a := rfl
@[simp] theorem State.push_cell (w : Word) (i : Fin 32) (j : Fin 64) : (s.push w).cell i j = s.cell i j := rfl

/-! ### setFb -/

@[simp] theorem State.setFb_v (f : Screen) : (s.setFb f).v = s.v := rfl
@[simp] theorem State.setFb_idx (f : Screen) : (s.setFb f).idx = s.idx := rfl
@[simp] theorem State.setFb_pc (f : Screen) : (s.setFb f).pc = s.pc := rfl
@[simp] theorem State.setFb_dt (f : Screen) : (s.setFb f).dt = s.dt := rfl
@[simp] theorem State.setFb_st (f : Screen) : (s.setFb f).st = s.st := rfl
@[simp] theorem State.setFb_stack (f : Screen) : (s.setFb f).stack = s.stack := rfl
@[simp] theorem State.setFb_fb (f : Screen) : (s.setFb f).fb = f := rfl
@[simp] theorem State.setFb_mem (f : Screen) : (s.setFb f).mem = s.mem := rfl
@[simp] theorem State.setFb_fault (f : Screen) : (s.setFb f).fault = s.fault := rfl
@[simp] theorem State.setFb_params (f : Screen) : (s.setFb f).params = s.params := rfl
@[simp] theorem State.setFb_key (f : Screen) : (s.setFb f).key = s.key := rfl
@[simp] theorem State.setFb_rnd (f : Screen) : (s.setFb f).rnd = s.rnd := rfl
@[simp] theorem State.setFb_ops (f : Screen) : (s.setFb f).ops = s.ops := rfl
@[simp] theorem State.setFb_inputNo (f : Screen) : (s.setFb f).inputNo = s.inputNo := rfl
@[simp] theorem State.setFb_reply (f : Screen) : (s.setFb f).reply = s.reply := rfl
@[simp] theorem State.setFb_readV (f : Screen) (i : Nibble) : (s.setFb f).readV i = s.readV i := rfl
@[simp] theorem State.setFb_memByte (f : Screen) (a : Nat) : (s.setFb f).memByte a = s.memByte a := rfl

/-! ### setCell -/

@[simp] theorem State.setCell_v (y : Fin 32) (x : Fin 64) (b : Bool) : (s.setCell y x b).v = s.v := rfl
@[simp] theorem State.setCell_idx (y : Fin 32) (x : Fin 64) (b : Bool) : (s.setCell y x b).idx = s.idx := rfl
@[simp] theorem State.setCell_pc (y : Fin 32) (x : Fin 64) (b : Bool) : (s.setCell y x b).pc = s.pc := rfl
@[simp] theorem State.setCell_dt (y : Fin 32) (x : Fin 64) (b : Bool) : (s.setCell y x b).dt = s.dt := rfl
@[simp] theorem State.setCell_st (y : Fin 32) (x : Fin 64) (b : Bool) : (s.setCell y x b).st = s.st := rfl
@[simp] theorem State.setCell_stack (y : Fin 32) (x : Fin 64) (b : Bool) : (s.setCell y x b).stack = s.stack := rfl
@[simp] theorem State.setCell_fb (y : Fin 32) (x : Fin 64) (b : Bool) : (s.setCell y x b).fb = s.fb.set y.val ((s.fb[y.val]'y.isLt).set x.val b x.isLt) y.isLt := rfl
@[simp] theorem State.setCell_mem (y : Fin 32) (x : Fin 64) (b : Bool) : (s.setCell y x b).mem = s.mem := rfl
@[simp] theorem State.setCell_fault (y : Fin 32) (x : Fin 64) (b : Bool) : (s.setCell y x b).fault = s.fault := rfl
@[simp] theorem State.setCell_params (y : Fin 32) (x : Fin 64) (b : Bool) : (s.setCell y x b).params = s.params := rfl
@[simp] theorem State.setCell_key (y : Fin 32) (x : Fin 64) (b : Bool) : (s.setCell y x b).key = s.key := rfl
@[simp] theorem State.setCell_rnd (y : Fin 32) (x : Fin 64) (b : Bool) : (s.setCell y x b).rnd = s.rnd := rfl
@[simp] theorem State.setCell_ops (y : Fin 32) (x : Fin 64) (b : Bool) : (s.setCell y x b).ops = s.ops := rfl
@[simp] theorem State.setCell_inputNo (y : Fin 32) (x : Fin 64) (b : Bool) : (s.setCell y x b).inputNo = s.inputNo := rfl
@[simp] theorem State.setCell_reply (y : Fin 32) (x : Fin 64) (b : Bool) : (s.setCell y x b).reply = s.reply := rfl
@[simp] theorem State.setCell_readV (y : Fin 32) (x : Fin 64) (b : Bool) (i : Nibble) : (s.setCell y x b).readV i = s.readV i := rfl
@[simp] theorem State.setCell_memByte (y : Fin 32) (x : Fin 64) (b : Bool) (a : Nat) : (s.setCell y x b).memByte a = s.memByte a := rfl

/-! ### raise -/

@[simp] theorem State.raise_v (c : FaultCause) : (s.raise c).v = s.v := rfl
@[simp] theorem State.raise_idx (c : FaultCause) : (s.raise c).idx = s.idx := rfl
@[simp] theorem State.raise_pc (c : FaultCause) : (s.raise c).pc = s.pc := rfl
@[simp] theorem State.raise_dt (c : FaultCause) : (s.raise c).dt = s.dt := rfl
@[simp] theorem State.raise_st (c : FaultCause) : (s.raise c).st = s.st := rfl
@[simp] theorem State.raise_stack (c : FaultCause) : (s.raise c).stack = s.stack := rfl
@[simp] theorem State.raise_fb (c : FaultCause) : (s.raise c).fb = s.fb := rfl
@[simp] theorem State.raise_mem (c : FaultCause) : (s.raise c).mem = s.mem := rfl
@[simp] theorem State.raise_fault (c : FaultCause) : (s.raise c).fault = some c := rfl
@[simp] theorem State.raise_params (c : FaultCause) : (s.raise c).params = s.params := rfl
@[simp] theorem State.raise_key (c : FaultCause) : (s.raise c).key = s.key := rfl
@[simp] theorem State.raise_rnd (c : FaultCause) : (s.raise c).rnd = s.rnd := rfl
@[simp] theorem State.raise_ops (c : FaultCause) : (s.raise c).ops = s.ops := rfl
@[simp] theorem State.raise_inputNo (c : FaultCause) : (s.raise c).inputNo = s.inputNo := rfl
@[simp] theorem State.raise_reply (c : FaultCause) : (s.raise c).reply = s.reply := rfl
@[simp] theorem State.raise_readV (c : FaultCause) (i : Nibble) : (s.raise c).readV i = s.readV i := rfl
@[simp] theorem State.raise_memByte (c : FaultCause) (a : Nat) : (s.raise c).memByte a = s.memByte a := rfl
@[simp] theorem State.raise_cell (c : FaultCause) (i : Fin 32) (j : Fin 64) : (s.raise c).cell i j = s.cell i j := rfl

/-! ### answer -/

@[simp] theorem State.answer_v (r : Reply) : (s.answer r).v = s.v := rfl
@[simp] theorem State.answer_idx (r : Reply) : (s.answer r).idx = s.idx := rfl
@[simp] theorem State.answer_pc (r : Reply) : (s.answer r).pc = s.pc := rfl
@[simp] theorem State.answer_dt (r : Reply) : (s.answer r).dt = s.dt := rfl
@[simp] theorem State.answer_st (r : Reply) : (s.answer r).st = s.st := rfl
@[simp] theorem State.answer_stack (r : Reply) : (s.answer r).stack = s.stack := rfl
@[simp] theorem State.answer_fb (r : Reply) : (s.answer r).fb = s.fb := rfl
@[simp] theorem State.answer_mem (r : Reply) : (s.answer r).mem = s.mem := rfl
@[simp] theorem State.answer_fault (r : Reply) : (s.answer r).fault = s.fault := rfl
@[simp] theorem State.answer_params (r : Reply) : (s.answer r).params = s.params := rfl
@[simp] theorem State.answer_key (r : Reply) : (s.answer r).key = s.key := rfl
@[simp] theorem State.answer_rnd (r : Reply) : (s.answer r).rnd = s.rnd := rfl
@[simp] theorem State.answer_ops (r : Reply) : (s.answer r).ops = s.ops := rfl
@[simp] theorem State.answer_inputNo (r : Reply) : (s.answer r).inputNo = s.inputNo := rfl
@[simp] theorem State.answer_reply (r : Reply) : (s.answer r).reply = r := rfl
@[simp] theorem State.answer_readV (r : Reply) (i : Nibble) : (s.answer r).readV i = s.readV i := rfl
@[simp] theorem State.answer_memByte (r : Reply) (a : Nat) : (s.answer r).memByte a = s.memByte a := rfl
@[simp] theorem State.answer_cell (r : Reply) (i : Fin 32) (j : Fin 64) : (s.answer r).cell i j = s.cell i j := rfl

/-! ### latch -/

@[simp] theorem State.latch_v (k : Option Nibble) (r : Byte) : (s.latch k r).v = s.v := rfl
@[simp] theorem State.latch_idx (k : Option Nibble) (r : Byte) : (s.latch k r).idx = s.idx := rfl
@[simp] theorem State.latch_pc (k : Option Nibble) (r : Byte) : (s.latch k r).pc = s.pc := rfl
@[simp] theorem State.latch_dt (k : Option Nibble) (r : Byte) : (s.latch k r).dt = s.dt := rfl
@[simp] theorem State.latch_st (k : Option Nibble) (r : Byte) : (s.latch k r).st = s.st := rfl
@[simp] theorem State.latch_stack (k : Option Nibble) (r : Byte) : (s.latch k r).stack = s.stack := rfl
@[simp] theorem State.latch_fb (k : Option Nibble) (r : Byte) : (s.latch k r).fb = s.fb := rfl
@[simp] theorem State.latch_mem (k : Option Nibble) (r : Byte) : (s.latch k r).mem = s.mem := rfl
@[simp] theorem State.latch_fault (k : Option Nibble) (r : Byte) : (s.latch k r).fault = s.fault := rfl
@[simp] theorem State.latch_params (k : Option Nibble) (r : Byte) : (s.latch k r).params = s.params := rfl
@[simp] theorem State.latch_key (k : Option Nibble) (r : Byte) : (s.latch k r).key = k := rfl
@[simp] theorem State.latch_rnd (k : Option Nibble) (r : Byte) : (s.latch k r).rnd = r := rfl
@[simp] theorem State.latch_ops (k : Option Nibble) (r : Byte) : (s.latch k r).ops = s.ops := rfl
@[simp] theorem State.latch_inputNo (k : Option Nibble) (r : Byte) : (s.latch k r).inputNo = s.inputNo := rfl
@[simp] theorem State.latch_reply (k : Option Nibble) (r : Byte) : (s.latch k r).reply = s.reply := rfl
@[simp] theorem State.latch_readV (k : Option Nibble) (r : Byte) (i : Nibble) : (s.latch k r).readV i = s.readV i := rfl
@[simp] theorem State.latch_memByte (k : Option Nibble) (r : Byte) (a : Nat) : (s.latch k r).memByte a = s.memByte a := rfl
@[simp] theorem State.latch_cell (k : Option Nibble) (r : Byte) (i : Fin 32) (j : Fin 64) : (s.latch k r).cell i j = s.cell i j := rfl

end Sys2Proof.Machine
end

