-- ==== Sys2Proof/Laws/Ops.lean ====
section
/-! SUPPORT. One lemma per shared operation that says once everything it can do: registers, the framebuffer, transfers,
flags, faults, and the host's operations.
-/

namespace Sys2Proof.Machine

variable (s : State)

/-! ### Registers -/

/-- A register read after a register write. -/
theorem State.readV_writeV (x y : Nibble) (b : Byte) : (s.writeV x b).readV y = if x = y then b else s.readV y := by
  by_cases h : x = y
  · subst h; simp [State.readV]
  · have hne : x.toNat ≠ y.toNat := fun e => h (BitVec.eq_of_toNat_eq e)
    simp [State.readV, h, Vector.getElem_set_ne _ _ hne]

/-- The register just written. -/
@[simp] theorem State.readV_writeV_same (x : Nibble) (b : Byte) : (s.writeV x b).readV x = b := by
  simp [State.readV_writeV]

/-- Result, then flag (R121): the flag is what remains in `VF`. -/
theorem State.readV_writeWithFlag (x y : Nibble) (r : Byte) (f : Bool) :
    (s.writeWithFlag x r f).readV y = if y = 0xF#4 then flagByte f else if x = y then r else s.readV y := by
  simp only [State.writeWithFlag, State.readV_writeV, flagReg]
  by_cases h : y = 0xF#4
  · subst h; simp
  · rw [if_neg (fun e => h e.symm), if_neg h]

/-- The two writes of a flag-setting instruction change registers only. -/
theorem State.writeWithFlag_eq (x : Nibble) (r : Byte) (f : Bool) :
    ∃ v, s.writeWithFlag x r f = { s with v := v } := ⟨_, rfl⟩

/-- Consecutive register writes change registers only. -/
theorem State.writeRegs_eq (k : Nibble) (bs : List Byte) : ∃ v, s.writeRegs k bs = { s with v := v } := by
  induction bs generalizing s k with
  | nil => exact ⟨s.v, rfl⟩
  | cons b bs ih =>
    obtain ⟨v, hv⟩ := ih (s.writeV k b) (k + 1)
    exact ⟨v, hv⟩

/-! What the composite register writes leave alone. -/

@[simp] theorem State.writeWithFlag_idx (x : Nibble) (r : Byte) (f : Bool) : (s.writeWithFlag x r f).idx = s.idx := rfl
@[simp] theorem State.writeWithFlag_pc (x : Nibble) (r : Byte) (f : Bool) : (s.writeWithFlag x r f).pc = s.pc := rfl
@[simp] theorem State.writeWithFlag_dt (x : Nibble) (r : Byte) (f : Bool) : (s.writeWithFlag x r f).dt = s.dt := rfl
@[simp] theorem State.writeWithFlag_st (x : Nibble) (r : Byte) (f : Bool) : (s.writeWithFlag x r f).st = s.st := rfl
@[simp] theorem State.writeWithFlag_stack (x : Nibble) (r : Byte) (f : Bool) : (s.writeWithFlag x r f).stack = s.stack := rfl
@[simp] theorem State.writeWithFlag_fb (x : Nibble) (r : Byte) (f : Bool) : (s.writeWithFlag x r f).fb = s.fb := rfl
@[simp] theorem State.writeWithFlag_mem (x : Nibble) (r : Byte) (f : Bool) : (s.writeWithFlag x r f).mem = s.mem := rfl
@[simp] theorem State.writeWithFlag_fault (x : Nibble) (r : Byte) (f : Bool) : (s.writeWithFlag x r f).fault = s.fault := rfl
@[simp] theorem State.writeWithFlag_params (x : Nibble) (r : Byte) (f : Bool) : (s.writeWithFlag x r f).params = s.params := rfl
@[simp] theorem State.writeWithFlag_key (x : Nibble) (r : Byte) (f : Bool) : (s.writeWithFlag x r f).key = s.key := rfl
@[simp] theorem State.writeWithFlag_rnd (x : Nibble) (r : Byte) (f : Bool) : (s.writeWithFlag x r f).rnd = s.rnd := rfl
@[simp] theorem State.writeWithFlag_ops (x : Nibble) (r : Byte) (f : Bool) : (s.writeWithFlag x r f).ops = s.ops := rfl
@[simp] theorem State.writeWithFlag_inputNo (x : Nibble) (r : Byte) (f : Bool) : (s.writeWithFlag x r f).inputNo = s.inputNo := rfl
@[simp] theorem State.writeWithFlag_reply (x : Nibble) (r : Byte) (f : Bool) : (s.writeWithFlag x r f).reply = s.reply := rfl
@[simp] theorem State.writeWithFlag_memByte (x : Nibble) (r : Byte) (f : Bool) (a : Nat) : (s.writeWithFlag x r f).memByte a = s.memByte a := rfl
@[simp] theorem State.writeWithFlag_cell (x : Nibble) (r : Byte) (f : Bool) (i : Fin 32) (j : Fin 64) : (s.writeWithFlag x r f).cell i j = s.cell i j := rfl

@[simp] theorem State.writeRegs_idx (k : Nibble) (bs : List Byte) : (s.writeRegs k bs).idx = s.idx := (s.writeRegs_eq k bs).elim fun _ h => h ▸ rfl
@[simp] theorem State.writeRegs_pc (k : Nibble) (bs : List Byte) : (s.writeRegs k bs).pc = s.pc := (s.writeRegs_eq k bs).elim fun _ h => h ▸ rfl
@[simp] theorem State.writeRegs_dt (k : Nibble) (bs : List Byte) : (s.writeRegs k bs).dt = s.dt := (s.writeRegs_eq k bs).elim fun _ h => h ▸ rfl
@[simp] theorem State.writeRegs_st (k : Nibble) (bs : List Byte) : (s.writeRegs k bs).st = s.st := (s.writeRegs_eq k bs).elim fun _ h => h ▸ rfl
@[simp] theorem State.writeRegs_stack (k : Nibble) (bs : List Byte) : (s.writeRegs k bs).stack = s.stack := (s.writeRegs_eq k bs).elim fun _ h => h ▸ rfl
@[simp] theorem State.writeRegs_fb (k : Nibble) (bs : List Byte) : (s.writeRegs k bs).fb = s.fb := (s.writeRegs_eq k bs).elim fun _ h => h ▸ rfl
@[simp] theorem State.writeRegs_mem (k : Nibble) (bs : List Byte) : (s.writeRegs k bs).mem = s.mem := (s.writeRegs_eq k bs).elim fun _ h => h ▸ rfl
@[simp] theorem State.writeRegs_fault (k : Nibble) (bs : List Byte) : (s.writeRegs k bs).fault = s.fault := (s.writeRegs_eq k bs).elim fun _ h => h ▸ rfl
@[simp] theorem State.writeRegs_params (k : Nibble) (bs : List Byte) : (s.writeRegs k bs).params = s.params := (s.writeRegs_eq k bs).elim fun _ h => h ▸ rfl
@[simp] theorem State.writeRegs_key (k : Nibble) (bs : List Byte) : (s.writeRegs k bs).key = s.key := (s.writeRegs_eq k bs).elim fun _ h => h ▸ rfl
@[simp] theorem State.writeRegs_rnd (k : Nibble) (bs : List Byte) : (s.writeRegs k bs).rnd = s.rnd := (s.writeRegs_eq k bs).elim fun _ h => h ▸ rfl
@[simp] theorem State.writeRegs_ops (k : Nibble) (bs : List Byte) : (s.writeRegs k bs).ops = s.ops := (s.writeRegs_eq k bs).elim fun _ h => h ▸ rfl
@[simp] theorem State.writeRegs_inputNo (k : Nibble) (bs : List Byte) : (s.writeRegs k bs).inputNo = s.inputNo := (s.writeRegs_eq k bs).elim fun _ h => h ▸ rfl
@[simp] theorem State.writeRegs_reply (k : Nibble) (bs : List Byte) : (s.writeRegs k bs).reply = s.reply := (s.writeRegs_eq k bs).elim fun _ h => h ▸ rfl
@[simp] theorem State.writeRegs_memByte (k : Nibble) (bs : List Byte) (a : Nat) : (s.writeRegs k bs).memByte a = s.memByte a := (s.writeRegs_eq k bs).elim fun _ h => h ▸ rfl
@[simp] theorem State.writeRegs_cell (k : Nibble) (bs : List Byte) (i : Fin 32) (j : Fin 64) : (s.writeRegs k bs).cell i j = s.cell i j := (s.writeRegs_eq k bs).elim fun _ h => h ▸ rfl

/-- A register read after consecutive register writes that stay within the sixteen. -/
theorem State.readV_writeRegs (k y : Nibble) (bs : List Byte) (h : k.toNat + bs.length ≤ 16) :
    (s.writeRegs k bs).readV y =
      if h : k.toNat ≤ y.toNat ∧ y.toNat < k.toNat + bs.length then bs[y.toNat - k.toNat] else s.readV y := by
  induction bs generalizing s k with
  | nil => simp only [State.writeRegs, List.length_nil]; rw [dif_neg (by omega)]
  | cons b bs ih =>
    simp only [State.writeRegs]
    simp only [List.length_cons] at h ⊢
    by_cases hlast : bs = []
    · subst hlast
      simp only [State.writeRegs, List.length_nil, State.readV_writeV]
      by_cases e : k = y
      · subst e; simp
      · have : k.toNat ≠ y.toNat := fun e' => e (BitVec.eq_of_toNat_eq e')
        rw [if_neg e, dif_neg (by omega)]
    · have hpos : 0 < bs.length := List.length_pos_iff.mpr hlast
      have hk : (k + 1).toNat = k.toNat + 1 := by
        rw [BitVec.toNat_add]; simp; omega
      rw [ih (s.writeV k b) (k + 1) (by omega)]
      simp only [hk, State.readV_writeV]
      by_cases e : k = y
      · subst e
        rw [dif_neg (by omega), if_pos rfl, dif_pos (by omega)]
        simp
      · have hne : k.toNat ≠ y.toNat := fun e' => e (BitVec.eq_of_toNat_eq e')
        rw [if_neg e]
        by_cases hr : k.toNat + 1 ≤ y.toNat ∧ y.toNat < k.toNat + 1 + bs.length
        · rw [dif_pos hr, dif_pos (by omega)]
          simp [show y.toNat - k.toNat = (y.toNat - (k.toNat + 1)) + 1 by omega]
        · rw [dif_neg hr, dif_neg (by omega)]

/-- The registers `V[0]`..`V[X]` as a list. -/
@[simp] theorem State.length_firstRegs (x : Nibble) : (s.firstRegs x).length = regCount x := by
  have := x.isLt
  simp [State.firstRegs, regCount]
  omega

/-- The `k`-th of them is `V[k]`. -/
theorem State.getElem_firstRegs (x : Nibble) (k : Nat) (h : k < (s.firstRegs x).length) :
    (s.firstRegs x)[k] = s.readV (BitVec.ofNat 4 k) := by
  have hk : k < 16 := by
    have := x.isLt
    simp [regCount] at h
    omega
  simp [State.firstRegs, State.readV, Nat.mod_eq_of_lt hk]

/-! ### Framebuffer -/

/-- A cell read after a cell write. -/
theorem State.cell_setCell (y y' : Fin 32) (x x' : Fin 64) (b : Bool) :
    (s.setCell y x b).cell y' x' = if y = y' ∧ x = x' then b else s.cell y' x' := by
  by_cases hy : y = y'
  · subst hy
    by_cases hx : x = x'
    · subst hx; simp [State.cell]
    · have : x.val ≠ x'.val := fun e => hx (Fin.ext e)
      simp [State.cell, hx, Vector.getElem_set_ne _ _ this]
  · have : y.val ≠ y'.val := fun e => hy (Fin.ext e)
    simp [State.cell, hy, Vector.getElem_set_ne _ _ this]

/-- Every cell of the cleared screen is unlit. -/
@[simp] theorem State.cell_setFb_clear (y : Fin 32) (x : Fin 64) : (s.setFb clearScreen).cell y x = false := by
  simp [State.cell, clearScreen]

/-! ### Operands -/

/-- The check of a transfer of at least one byte (R56). -/
theorem State.transferFits_iff (n : Nat) : s.transferFits n = true ↔ (n = 0 ∨ s.idx.toNat + (n - 1) ≤ 4095) := by
  simp [State.transferFits]

/-- A transfer that does not fit has a byte, and its last address is above 4095 (R56). -/
theorem State.transferFits_eq_false (n : Nat) : s.transferFits n = false ↔ (n ≠ 0 ∧ 4095 < s.idx.toNat + (n - 1)) := by
  simp [State.transferFits]

/-- The key test is the comparison of numbers (R114). -/
theorem State.keyIs_iff (b : Byte) : s.keyIs b = true ↔ ∃ k, s.key = some k ∧ k.toNat = b.toNat := by
  unfold State.keyIs
  cases hk : s.key with
  | none => simp
  | some k =>
    simp only [keyByte, beq_iff_eq, Option.some.injEq, exists_eq_left']
    rw [← BitVec.toNat_inj]
    have := k.isLt
    simp [BitVec.toNat_setWidth]
    omega

@[simp] theorem zextAddr_toNat (nnn : Addr) : (zextAddr nnn).toNat = nnn.toNat := by
  have := nnn.isLt
  simp [zextAddr, BitVec.toNat_setWidth]
  omega

@[simp] theorem zextByte_toNat (b : Byte) : (zextByte b).toNat = b.toNat := by
  have := b.isLt
  simp [zextByte, BitVec.toNat_setWidth]
  omega

@[simp] theorem keyByte_toNat (k : Nibble) : (keyByte k).toNat = k.toNat := by
  have := k.isLt
  simp [keyByte, BitVec.toNat_setWidth]
  omega

/-- `FONT_BASE + 5 * d` fits 16 bits for a digit (R143). -/
theorem fontAddress_toNat (p : Params) (d : Byte) (h : d.toNat ≤ 15) :
    (fontAddress p d).toNat = p.fontBase.val + 5 * d.toNat := by
  have := p.fontBase.isLt
  simp only [fontAddress, BitVec.toNat_ofNat]
  exact Nat.mod_eq_of_lt (by omega)

@[simp] theorem length_bcdDigits (b : Byte) : (bcdDigits b).length = 3 := rfl

/-! ### Faults and the host's operations -/

/-- Taking a fault is a next state in which only `fault` differs (R176). -/
theorem takeFault_eq (c : FaultCause) : takeFault c s = .next { s with fault := some c } := rfl

/-- One timer counted down, as a number: floor 0 (R186). -/
theorem countDown_toNat (b : Byte) : (countDown b).toNat = b.toNat - 1 := by
  unfold countDown
  split
  · rename_i h; subst h; rfl
  · rename_i h
    have h0 : b.toNat ≠ 0 := fun e => h (BitVec.eq_of_toNat_eq (by simpa using e))
    have := b.isLt
    rw [BitVec.toNat_sub]
    simp
    omega

/-- `Tick` changes the timers and the reply (R186). -/
theorem State.tick_eq : s.tick = { s with dt := countDown s.dt, st := countDown s.st, reply := .nothing } := rfl

/-- `Load` that fits writes memory only (R65). -/
theorem State.load_of_fits {base : Nat} {bytes : List Byte} (h : base + bytes.length ≤ 4096) :
    s.load base bytes = { s with mem := s.mem.writeBytes base bytes, reply := .loadOk } := by
  unfold State.load
  rw [if_neg (by simp [Config.memSize]; omega)]
  rfl

/-- `Load` that does not fit writes nothing (R65). -/
theorem State.load_of_not_fits {base : Nat} {bytes : List Byte} (h : 4096 < base + bytes.length) :
    s.load base bytes = { s with reply := .loadError } := by
  unfold State.load
  rw [if_pos (by simp [Config.memSize]; omega)]
  rfl

/-- The host's next operation when one is written down. -/
theorem State.nextOp_cons {op : HostOp} {rest : List HostOp} (h : s.ops = op :: rest) :
    s.nextOp = (op, { s with ops := rest }) := by
  simp [State.nextOp, h]

/-- The host's next operation when none is: a `Step` with free arguments. -/
theorem State.nextOp_nil (h : s.ops = []) :
    s.nextOp = (.step (Config.freeKey s.inputNo) (Config.freeRnd s.inputNo), { s with inputNo := s.inputNo + 1 }) := by
  simp [State.nextOp, h]

end Sys2Proof.Machine
end

