-- ==== Sys2Proof/Laws/Display.lean ====
section
/-! SUPPORT. What the sprite renderer does: the cells it targets, in scan order and each once, and the effect of drawing a
list of cells on the screen and on `VF`.
-/

namespace Sys2Proof.Machine

/-- One lit bit: registers and screen are all it changes. -/
theorem State.drawCell_eq (s : State) (p : Fin 32 × Fin 64) :
    ∃ v f, s.drawCell p = { s with v := v, fb := f } := by
  unfold State.drawCell
  split
  · exact ⟨_, _, rfl⟩
  · exact ⟨_, _, rfl⟩

/-- One lit bit toggles its cell and no other (R152, R153). -/
theorem State.cell_drawCell (s : State) (p : Fin 32 × Fin 64) (y : Fin 32) (x : Fin 64) :
    (s.drawCell p).cell y x = if p = (y, x) then !s.cell y x else s.cell y x := by
  obtain ⟨py, px⟩ := p
  by_cases e : (py, px) = (y, x)
  · obtain ⟨rfl, rfl⟩ := Prod.mk.inj e
    unfold State.drawCell
    cases s.cell py px <;> simp [State.cell_setCell]
  · have e' : ¬(py = y ∧ px = x) := fun h => e (by simp [h.1, h.2])
    unfold State.drawCell
    split <;> simp [State.cell_setCell, e']

/-- One lit bit writes `VF` with its collision and no other register (R152). -/
theorem State.readV_drawCell (s : State) (p : Fin 32 × Fin 64) (r : Nibble) :
    (s.drawCell p).readV r = if r = 0xF#4 then flagByte (s.cell p.1 p.2) else s.readV r := by
  unfold State.drawCell
  by_cases e : r = 0xF#4
  · subst e
    cases s.cell p.1 p.2 <;> simp [flagReg]
  · have e' : ¬(15#4 = r) := fun h => e h.symm
    cases s.cell p.1 p.2 <;> simp [State.readV_writeV, flagReg, e, e']

/-- Drawing changes registers and screen only. -/
theorem State.drawCells_eq (s : State) (ps : List (Fin 32 × Fin 64)) :
    ∃ v f, s.drawCells ps = { s with v := v, fb := f } := by
  induction ps generalizing s with
  | nil => exact ⟨s.v, s.fb, rfl⟩
  | cons p ps ih =>
    obtain ⟨v, f, h⟩ := State.drawCell_eq s p
    obtain ⟨v', f', h'⟩ := ih (s.drawCell p)
    exact ⟨v', f', by rw [State.drawCells, h', h]⟩

/-! What drawing leaves alone. -/

@[simp] theorem State.drawCells_idx (s : State) (ps : List (Fin 32 × Fin 64)) : (s.drawCells ps).idx = s.idx := (s.drawCells_eq ps).elim fun _ h => h.elim fun _ h => h ▸ rfl
@[simp] theorem State.drawCells_pc (s : State) (ps : List (Fin 32 × Fin 64)) : (s.drawCells ps).pc = s.pc := (s.drawCells_eq ps).elim fun _ h => h.elim fun _ h => h ▸ rfl
@[simp] theorem State.drawCells_dt (s : State) (ps : List (Fin 32 × Fin 64)) : (s.drawCells ps).dt = s.dt := (s.drawCells_eq ps).elim fun _ h => h.elim fun _ h => h ▸ rfl
@[simp] theorem State.drawCells_st (s : State) (ps : List (Fin 32 × Fin 64)) : (s.drawCells ps).st = s.st := (s.drawCells_eq ps).elim fun _ h => h.elim fun _ h => h ▸ rfl
@[simp] theorem State.drawCells_stack (s : State) (ps : List (Fin 32 × Fin 64)) : (s.drawCells ps).stack = s.stack := (s.drawCells_eq ps).elim fun _ h => h.elim fun _ h => h ▸ rfl
@[simp] theorem State.drawCells_mem (s : State) (ps : List (Fin 32 × Fin 64)) : (s.drawCells ps).mem = s.mem := (s.drawCells_eq ps).elim fun _ h => h.elim fun _ h => h ▸ rfl
@[simp] theorem State.drawCells_fault (s : State) (ps : List (Fin 32 × Fin 64)) : (s.drawCells ps).fault = s.fault := (s.drawCells_eq ps).elim fun _ h => h.elim fun _ h => h ▸ rfl
@[simp] theorem State.drawCells_params (s : State) (ps : List (Fin 32 × Fin 64)) : (s.drawCells ps).params = s.params := (s.drawCells_eq ps).elim fun _ h => h.elim fun _ h => h ▸ rfl
@[simp] theorem State.drawCells_key (s : State) (ps : List (Fin 32 × Fin 64)) : (s.drawCells ps).key = s.key := (s.drawCells_eq ps).elim fun _ h => h.elim fun _ h => h ▸ rfl
@[simp] theorem State.drawCells_rnd (s : State) (ps : List (Fin 32 × Fin 64)) : (s.drawCells ps).rnd = s.rnd := (s.drawCells_eq ps).elim fun _ h => h.elim fun _ h => h ▸ rfl
@[simp] theorem State.drawCells_ops (s : State) (ps : List (Fin 32 × Fin 64)) : (s.drawCells ps).ops = s.ops := (s.drawCells_eq ps).elim fun _ h => h.elim fun _ h => h ▸ rfl
@[simp] theorem State.drawCells_inputNo (s : State) (ps : List (Fin 32 × Fin 64)) : (s.drawCells ps).inputNo = s.inputNo := (s.drawCells_eq ps).elim fun _ h => h.elim fun _ h => h ▸ rfl
@[simp] theorem State.drawCells_reply (s : State) (ps : List (Fin 32 × Fin 64)) : (s.drawCells ps).reply = s.reply := (s.drawCells_eq ps).elim fun _ h => h.elim fun _ h => h ▸ rfl
@[simp] theorem State.drawCells_memByte (s : State) (ps : List (Fin 32 × Fin 64)) (a : Nat) : (s.drawCells ps).memByte a = s.memByte a := (s.drawCells_eq ps).elim fun _ h => h.elim fun _ h => h ▸ rfl

/-- Drawing a list of distinct cells toggles exactly those cells (R153). -/
theorem State.cell_drawCells (s : State) {ps : List (Fin 32 × Fin 64)} (hp : ps.Nodup) (y : Fin 32) (x : Fin 64) :
    (s.drawCells ps).cell y x = if (y, x) ∈ ps then !s.cell y x else s.cell y x := by
  induction ps generalizing s with
  | nil => simp [State.drawCells]
  | cons p ps ih =>
    obtain ⟨hnot, hnd⟩ := List.nodup_cons.mp hp
    rw [State.drawCells, ih (s.drawCell p) hnd, State.cell_drawCell]
    by_cases e : p = (y, x)
    · subst e; simp [hnot]
    · have e' : ¬((y, x) = p) := fun h => e h.symm
      simp [e, e']

/-- Drawing writes no register but `VF`. -/
theorem State.readV_drawCells_of_ne (s : State) (ps : List (Fin 32 × Fin 64)) {r : Nibble} (hr : r ≠ 0xF#4) :
    (s.drawCells ps).readV r = s.readV r := by
  induction ps generalizing s with
  | nil => rfl
  | cons p ps ih => rw [State.drawCells, ih, State.readV_drawCell, if_neg hr]

/-- `VF` after drawing distinct cells: the collision of the last one, against the screen before the instruction (R152). -/
theorem State.flag_drawCells (s : State) {ps : List (Fin 32 × Fin 64)} (hp : ps.Nodup) :
    (s.drawCells ps).readV 0xF#4 = match ps.getLast? with
      | none => s.readV 0xF#4
      | some p => flagByte (s.cell p.1 p.2) := by
  induction ps generalizing s with
  | nil => rfl
  | cons p ps ih =>
    obtain ⟨hnot, hnd⟩ := List.nodup_cons.mp hp
    rw [State.drawCells, ih (s.drawCell p) hnd]
    cases ps with
    | nil => simp [State.readV_drawCell]
    | cons q qs =>
      have hl : (q :: qs).getLast? = some ((q :: qs).getLast (by simp)) := List.getLast?_eq_some_getLast _
      have hl' : (p :: q :: qs).getLast? = some ((q :: qs).getLast (by simp)) := by
        rw [List.getLast?_cons_cons, hl]
      rw [hl, hl']
      simp only
      have hmem : (q :: qs).getLast (by simp) ∈ q :: qs := List.getLast_mem _
      have hne : p ≠ (((q :: qs).getLast (by simp)).1, ((q :: qs).getLast (by simp)).2) := fun e => hnot (e ▸ hmem)
      rw [State.cell_drawCell, if_neg hne]

/-- The lit cells of one row: bit `7 - c` of the byte is at column `x0 + c` (R151). -/
theorem mem_litInRow (b : Byte) (y y' : Fin 32) (x0 : Nat) (x : Fin 64) :
    (y', x) ∈ litInRow b y x0 ↔ y' = y ∧ x0 ≤ x.val ∧ x.val < x0 + 8 ∧ b.getLsbD (7 - (x.val - x0)) = true := by
  simp only [litInRow, List.mem_filterMap, List.mem_range]
  constructor
  · rintro ⟨c, hc, h⟩
    split at h
    · split at h
      · simp only [Option.some.injEq, Prod.mk.injEq] at h
        obtain ⟨rfl, rfl⟩ := h
        refine ⟨rfl, by simp, by simp; omega, ?_⟩
        simpa using ‹b.getLsbD (7 - c) = true›
      · simp at h
    · simp at h
  · rintro ⟨rfl, h1, h2, h3⟩
    refine ⟨x.val - x0, by omega, ?_⟩
    have hx : x0 + (x.val - x0) < 64 := by have := x.isLt; omega
    rw [dif_pos hx, if_pos h3]
    simp [show x0 + (x.val - x0) = x.val by omega]

/-- The lit cells of the sprite (R151). -/
theorem mem_litCells (m : Memory) (base x0 y0 rows : Nat) (y : Fin 32) (x : Fin 64) :
    (y, x) ∈ litCells m base x0 y0 rows ↔
      y0 ≤ y.val ∧ y.val < y0 + rows ∧ x0 ≤ x.val ∧ x.val < x0 + 8 ∧
        (m.read (base + (y.val - y0))).getLsbD (7 - (x.val - x0)) = true := by
  simp only [litCells, List.mem_flatMap, List.mem_range]
  constructor
  · rintro ⟨r, hr, h⟩
    split at h
    · obtain ⟨rfl, h1, h2, h3⟩ := (mem_litInRow _ _ _ _ _).mp h
      refine ⟨by simp, by simp; omega, h1, h2, ?_⟩
      simpa using h3
    · simp at h
  · rintro ⟨h1, h2, h3, h4, h5⟩
    refine ⟨y.val - y0, by omega, ?_⟩
    have hy : y0 + (y.val - y0) < 32 := by have := y.isLt; omega
    rw [dif_pos hy]
    exact (mem_litInRow _ _ _ _ _).mpr ⟨by simp [show y0 + (y.val - y0) = y.val by omega], h3, h4, h5⟩

/-- The cells of one row come left to right. -/
theorem pairwise_litInRow (b : Byte) (y : Fin 32) (x0 : Nat) : (litInRow b y x0).Pairwise scanBefore := by
  refine List.Pairwise.filterMap _ (R := fun c d => c < d) ?_ List.pairwise_lt_range
  intro c d hcd p hp q hq
  split at hp
  · split at hp
    · split at hq
      · split at hq
        · cases hp; cases hq
          exact .inr ⟨rfl, by simp; omega⟩
        · cases hq
      · cases hq
    · cases hp
  · cases hp

/-- The cells of the sprite come in scan order (R152). -/
theorem pairwise_litCells (m : Memory) (base x0 y0 rows : Nat) :
    (litCells m base x0 y0 rows).Pairwise scanBefore := by
  refine List.pairwise_flatMap.mpr ⟨fun r _ => ?_, ?_⟩
  · split
    · exact pairwise_litInRow _ _ _
    · exact List.Pairwise.nil
  · refine List.Pairwise.imp ?_ List.pairwise_lt_range
    intro r r' hrr p hp q hq
    obtain ⟨py, px⟩ := p
    obtain ⟨qy, qx⟩ := q
    split at hp
    · split at hq
      · obtain ⟨rfl, _⟩ := (mem_litInRow _ _ _ _ _).mp hp
        obtain ⟨rfl, _⟩ := (mem_litInRow _ _ _ _ _).mp hq
        exact .inl (by simp; omega)
      · simp at hq
    · simp at hp

/-- Each cell is targeted at most once (R152 corner case (e)). -/
theorem nodup_litCells (m : Memory) (base x0 y0 rows : Nat) : (litCells m base x0 y0 rows).Nodup := by
  refine List.Pairwise.imp ?_ (pairwise_litCells m base x0 y0 rows)
  rintro ⟨py, px⟩ ⟨qy, qx⟩ h e
  obtain ⟨rfl, rfl⟩ := Prod.mk.inj e
  rcases h with h | ⟨_, h⟩
  · exact absurd h (lt_irrefl _)
  · exact absurd h (lt_irrefl _)

/-- The cells `DXYN` targets are those where the sprite is lit (R151). -/
theorem State.mem_spriteCells (s : State) (vx vy n : Nibble) (y : Fin 32) (x : Fin 64) :
    (y, x) ∈ s.spriteCells vx vy n ↔ s.spriteLit vx vy n y x = true := by
  have hy := y.isLt
  simp only [State.spriteCells, mem_litCells, State.spriteLit, spriteLeft, spriteTop, spriteRows, State.memByte,
    Bool.and_eq_true, decide_eq_true_eq]
  constructor
  · rintro ⟨h1, h2, h3, h4, h5⟩; exact ⟨⟨h1, by omega, h3, h4⟩, h5⟩
  · rintro ⟨⟨h1, h2, h3, h4⟩, h5⟩; exact ⟨h1, by omega, h3, h4, h5⟩

/-- `DXYN` targets its cells in scan order (R152). -/
theorem State.pairwise_spriteCells (s : State) (vx vy n : Nibble) : (s.spriteCells vx vy n).Pairwise scanBefore :=
  pairwise_litCells _ _ _ _ _

/-- `DXYN` targets each cell at most once (R152 corner case (e)). -/
theorem State.nodup_spriteCells (s : State) (vx vy n : Nibble) : (s.spriteCells vx vy n).Nodup :=
  nodup_litCells _ _ _ _ _

/-- The check of `DXYN` in the terms of R56: no row on the screen, or the last one's byte in memory. -/
theorem State.drawFits_iff (s : State) (vy n : Nibble) :
    s.transferFits (spriteRows n (spriteTop (s.readV vy))) = true ↔
      (s.rowsOnScreen vy n = 0 ∨ s.idx.toNat + s.rowsOnScreen vy n - 1 ≤ 4095) := by
  rw [State.transferFits_iff]
  simp only [State.rowsOnScreen, spriteRows, spriteTop]
  omega

/-- Drawing the sprite toggles the cells where it is lit (R153). -/
theorem State.cell_drawSprite (s : State) (vx vy n : Nibble) (y : Fin 32) (x : Fin 64) :
    (s.drawCells (s.spriteCells vx vy n)).cell y x = (s.cell y x != s.spriteLit vx vy n y x) := by
  rw [s.cell_drawCells (s.nodup_spriteCells vx vy n)]
  simp only [State.mem_spriteCells]
  cases s.spriteLit vx vy n y x <;> simp

end Sys2Proof.Machine
end

