-- ==== Sys2Proof/Laws/Encoding.lean ====
section
/-! SUPPORT. The fields of a word put together from fields (30_encoding.md rule R71), a word as the concatenation of its
fields, and what the three masks of the opcode map (R74) leave of a word.
-/

namespace Sys2Proof

/-! ### Format A: `op ++ NNN` -/

/-- `op` of format A. -/
@[simp] theorem opField_formatA (o : Nibble) (nnn : Addr) : opField (o ++ nnn) = o := by
  apply BitVec.eq_of_getLsbD_eq
  intro i hi
  simp only [opField, BitVec.getLsbD_append, BitVec.getLsbD_extractLsb']
  interval_cases i <;> simp

/-- `NNN` of format A. -/
@[simp] theorem nnnField_formatA (o : Nibble) (nnn : Addr) : nnnField (o ++ nnn) = nnn := by
  apply BitVec.eq_of_getLsbD_eq
  intro i hi
  simp only [nnnField, BitVec.getLsbD_append, BitVec.getLsbD_extractLsb']
  interval_cases i <;> simp

/-- `X` of format A: the top nibble of `NNN` (R71). -/
@[simp] theorem xField_formatA (o : Nibble) (nnn : Addr) : xField (o ++ nnn) = nnn.extractLsb' 8 4 := by
  apply BitVec.eq_of_getLsbD_eq
  intro i hi
  simp only [xField, BitVec.getLsbD_append, BitVec.getLsbD_extractLsb']
  interval_cases i <;> simp

/-! ### Formats XI and XS: `op ++ X ++ NN` -/

/-- `op` of format XI. -/
@[simp] theorem opField_formatXI (o x : Nibble) (nn : Byte) : opField (o ++ x ++ nn) = o := by
  apply BitVec.eq_of_getLsbD_eq
  intro i hi
  simp only [opField, BitVec.getLsbD_append, BitVec.getLsbD_extractLsb']
  interval_cases i <;> simp

/-- `X` of format XI. -/
@[simp] theorem xField_formatXI (o x : Nibble) (nn : Byte) : xField (o ++ x ++ nn) = x := by
  apply BitVec.eq_of_getLsbD_eq
  intro i hi
  simp only [xField, BitVec.getLsbD_append, BitVec.getLsbD_extractLsb']
  interval_cases i <;> simp

/-- `NN` of format XI. -/
@[simp] theorem nnField_formatXI (o x : Nibble) (nn : Byte) : nnField (o ++ x ++ nn) = nn := by
  apply BitVec.eq_of_getLsbD_eq
  intro i hi
  simp only [nnField, BitVec.getLsbD_append, BitVec.getLsbD_extractLsb']
  interval_cases i <;> simp

/-! ### Format XY: `op ++ X ++ Y ++ N` -/

/-- `op` of format XY. -/
@[simp] theorem opField_formatXY (o x y n : Nibble) : opField (o ++ x ++ y ++ n) = o := by
  apply BitVec.eq_of_getLsbD_eq
  intro i hi
  simp only [opField, BitVec.getLsbD_append, BitVec.getLsbD_extractLsb']
  interval_cases i <;> simp

/-- `X` of format XY. -/
@[simp] theorem xField_formatXY (o x y n : Nibble) : xField (o ++ x ++ y ++ n) = x := by
  apply BitVec.eq_of_getLsbD_eq
  intro i hi
  simp only [xField, BitVec.getLsbD_append, BitVec.getLsbD_extractLsb']
  interval_cases i <;> simp

/-- `Y` of format XY. -/
@[simp] theorem yField_formatXY (o x y n : Nibble) : yField (o ++ x ++ y ++ n) = y := by
  apply BitVec.eq_of_getLsbD_eq
  intro i hi
  simp only [yField, BitVec.getLsbD_append, BitVec.getLsbD_extractLsb']
  interval_cases i <;> simp

/-- `N` of format XY. -/
@[simp] theorem nField_formatXY (o x y n : Nibble) : nField (o ++ x ++ y ++ n) = n := by
  apply BitVec.eq_of_getLsbD_eq
  intro i hi
  simp only [nField, BitVec.getLsbD_append, BitVec.getLsbD_extractLsb']
  interval_cases i <;> simp

/-! ### A word is its fields -/

/-- Format A. -/
theorem word_formatA (w : Word) : opField w ++ nnnField w = w := by
  apply BitVec.eq_of_getLsbD_eq
  intro i hi
  simp only [opField, nnnField, BitVec.getLsbD_append, BitVec.getLsbD_extractLsb']
  interval_cases i <;> simp

/-- Format XI. -/
theorem word_formatXI (w : Word) : opField w ++ xField w ++ nnField w = w := by
  apply BitVec.eq_of_getLsbD_eq
  intro i hi
  simp only [opField, xField, nnField, BitVec.getLsbD_append, BitVec.getLsbD_extractLsb']
  interval_cases i <;> simp

/-- Format XY. -/
theorem word_formatXY (w : Word) : opField w ++ xField w ++ yField w ++ nField w = w := by
  apply BitVec.eq_of_getLsbD_eq
  intro i hi
  simp only [opField, xField, yField, nField, BitVec.getLsbD_append, BitVec.getLsbD_extractLsb']
  interval_cases i <;> simp

/-- High byte, low byte (R53). -/
@[simp] theorem word_bytes (w : Word) : highByte w ++ lowByte w = w := by
  apply BitVec.eq_of_getLsbD_eq
  intro i hi
  simp only [highByte, lowByte, BitVec.getLsbD_append, BitVec.getLsbD_extractLsb']
  interval_cases i <;> simp

/-- The high byte of two bytes put together. -/
@[simp] theorem highByte_append (a b : Byte) : highByte (a ++ b) = a := by
  apply BitVec.eq_of_getLsbD_eq
  intro i hi
  simp only [highByte, BitVec.getLsbD_append, BitVec.getLsbD_extractLsb']
  interval_cases i <;> simp

/-- The low byte of two bytes put together. -/
@[simp] theorem lowByte_append (a b : Byte) : lowByte (a ++ b) = b := by
  apply BitVec.eq_of_getLsbD_eq
  intro i hi
  simp only [lowByte, BitVec.getLsbD_append, BitVec.getLsbD_extractLsb']
  interval_cases i <;> simp

/-! ### The masks of the opcode map -/

/-- Mask 0xF000 compares `op`. -/
theorem mask_op (w : Word) : w &&& 0xF000#16 = opField w ++ 0#12 := by
  apply BitVec.eq_of_getLsbD_eq
  intro i hi
  simp only [opField, BitVec.getLsbD_and, BitVec.getLsbD_append, BitVec.getLsbD_extractLsb']
  interval_cases i <;> simp

/-- Mask 0xF00F compares `op` and `N`. -/
theorem mask_op_n (w : Word) : w &&& 0xF00F#16 = opField w ++ 0#8 ++ nField w := by
  apply BitVec.eq_of_getLsbD_eq
  intro i hi
  simp only [opField, nField, BitVec.getLsbD_and, BitVec.getLsbD_append, BitVec.getLsbD_extractLsb']
  interval_cases i <;> simp

/-- Mask 0xF0FF compares `op` and `NN`. -/
theorem mask_op_nn (w : Word) : w &&& 0xF0FF#16 = opField w ++ 0#4 ++ nnField w := by
  apply BitVec.eq_of_getLsbD_eq
  intro i hi
  simp only [opField, nnField, BitVec.getLsbD_and, BitVec.getLsbD_append, BitVec.getLsbD_extractLsb']
  interval_cases i <;> simp

/-- Mask 0xFFFF compares the whole word. -/
theorem mask_all (w : Word) : w &&& 0xFFFF#16 = w := by
  rw [show (0xFFFF#16) = BitVec.allOnes 16 from rfl, BitVec.and_allOnes]

/-- A nibble that is none of 0 to 14 is 15, the last arm of the dispatch (R75). -/
theorem nibble_eq_fifteen {o : Nibble} (h0 : o ≠ 0#4) (h1 : o ≠ 1#4) (h2 : o ≠ 2#4) (h3 : o ≠ 3#4) (h4 : o ≠ 4#4)
    (h5 : o ≠ 5#4) (h6 : o ≠ 6#4) (h7 : o ≠ 7#4) (h8 : o ≠ 8#4) (h9 : o ≠ 9#4) (h10 : o ≠ 10#4) (h11 : o ≠ 11#4)
    (h12 : o ≠ 12#4) (h13 : o ≠ 13#4) (h14 : o ≠ 14#4) : o = 15#4 := by
  bv_omega

/-! ### When a row of the opcode map covers a word -/

/-- A row that compares the whole word. -/
theorem covers_word (m : String) (v w : Word) : OpcodeRow.covers ⟨m, 0xFFFF, v⟩ w = (w == v) := by
  simp only [OpcodeRow.covers]
  congr 1
  exact mask_all w

/-- A row that compares `op`. -/
theorem covers_op (m : String) (o : Nibble) (v w : Word) (hv : v = o ++ 0#12) :
    OpcodeRow.covers ⟨m, 0xF000, v⟩ w = (opField w == o) := by
  subst hv
  rw [Bool.eq_iff_iff]
  simp only [OpcodeRow.covers, beq_iff_eq]
  constructor
  · intro h
    have := congrArg opField ((mask_op w).symm.trans h)
    simpa using this
  · rintro rfl
    exact mask_op w

/-- A row that compares `op` and `N`. -/
theorem covers_op_n (m : String) (o n : Nibble) (v w : Word) (hv : v = o ++ 0x0#4 ++ 0x0#4 ++ n) :
    OpcodeRow.covers ⟨m, 0xF00F, v⟩ w = (opField w == o && nField w == n) := by
  subst hv
  have e : w &&& 0xF00F#16 = opField w ++ 0x0#4 ++ 0x0#4 ++ nField w := by
    rw [mask_op_n]
    generalize opField w = a
    generalize nField w = b
    revert a b
    decide
  rw [Bool.eq_iff_iff]
  simp only [OpcodeRow.covers, beq_iff_eq, Bool.and_eq_true]
  constructor
  · intro h
    have h' := e.symm.trans h
    exact ⟨by simpa using congrArg opField h', by simpa using congrArg nField h'⟩
  · rintro ⟨rfl, rfl⟩
    exact e

/-- A row that compares `op` and `NN`. -/
theorem covers_op_nn (m : String) (o : Nibble) (kk : Byte) (v w : Word) (hv : v = o ++ 0x0#4 ++ kk) :
    OpcodeRow.covers ⟨m, 0xF0FF, v⟩ w = (opField w == o && nnField w == kk) := by
  subst hv
  rw [Bool.eq_iff_iff]
  simp only [OpcodeRow.covers, beq_iff_eq, Bool.and_eq_true]
  constructor
  · intro h
    have h' := (mask_op_nn w).symm.trans h
    exact ⟨by simpa using congrArg opField h', by simpa using congrArg nnField h'⟩
  · rintro ⟨rfl, rfl⟩
    exact mask_op_nn w

/-- A table word of sixteen bits is the word itself. -/
theorem tableWord_sixteen (w : Word) : tableWord 16 w.toNat = w := by
  have := w.isLt
  apply BitVec.eq_of_toNat_eq
  simp only [tableWord, BitVec.toNat_ofNat]
  omega

/-- What the decoder answers for a table word (R75: never a refusal). -/
theorem decodeTableWord_eq (nbits w : Nat) : decodeTableWord nbits w = some (decodeWord (tableWord nbits w)) := by
  simp [decodeTableWord, decode]

end Sys2Proof
end

