-- ==== Sys2Proof/Laws/PerInstr.lean ====
section
/-! SUPPORT. Statements made of every instruction, one lemma per constructor.

`MatchesRow`: the word of a well-formed instruction is covered by the row of the opcode map (30_encoding.md rule R74) that
has the instruction's mnemonic, and the word of a `nop` by none.
-/

namespace Sys2Proof.Laws.MatchesRow

/-- The instruction's word matches its own row; a `nop`'s matches none (R74, R77). -/
def Statement (i : Instr) : Prop :=
  i.wf = true →
    (∃ r ∈ opcodeRows, r.mnemonic = i.mnemonic ∧ r.covers (encodeWord i) = true) ∨
      (i.mnemonic = "NOP" ∧ unrecognised (encodeWord i) = true)

/-- The `k`-th row of the map. -/
abbrev row (k : Fin 34) : OpcodeRow := opcodeRows[k.val]'k.isLt

/-- A row of the map that covers the word gives the statement. -/
theorem of_row {i : Instr} (k : Fin 34) (hn : (row k).mnemonic = i.mnemonic)
    (hc : (row k).covers (encodeWord i) = true) : Statement i := fun _ =>
  .inl ⟨row k, List.getElem_mem _, hn, hc⟩

theorem cls : Statement .cls :=
  of_row 0 rfl rfl

theorem ret : Statement .ret :=
  of_row 1 rfl rfl

theorem jp (nnn : Addr) : Statement (.jp nnn) :=
  of_row 2 rfl
    ((covers_op _ 0x1#4 0x1000 _ rfl).trans (by simp [encodeWord]))

theorem call (nnn : Addr) : Statement (.call nnn) :=
  of_row 3 rfl
    ((covers_op _ 0x2#4 0x2000 _ rfl).trans (by simp [encodeWord]))

theorem seImm (x : Nibble) (nn : Byte) : Statement (.seImm x nn) :=
  of_row 4 rfl
    ((covers_op _ 0x3#4 0x3000 _ rfl).trans (by simp [encodeWord]))

theorem sneImm (x : Nibble) (nn : Byte) : Statement (.sneImm x nn) :=
  of_row 5 rfl
    ((covers_op _ 0x4#4 0x4000 _ rfl).trans (by simp [encodeWord]))

theorem seReg (x : Nibble) (y : Nibble) : Statement (.seReg x y) :=
  of_row 6 rfl
    ((covers_op_n _ 0x5#4 0x0#4 0x5000 _ rfl).trans (by simp [encodeWord]))

theorem ldImm (x : Nibble) (nn : Byte) : Statement (.ldImm x nn) :=
  of_row 7 rfl
    ((covers_op _ 0x6#4 0x6000 _ rfl).trans (by simp [encodeWord]))

theorem addImm (x : Nibble) (nn : Byte) : Statement (.addImm x nn) :=
  of_row 8 rfl
    ((covers_op _ 0x7#4 0x7000 _ rfl).trans (by simp [encodeWord]))

theorem ldReg (x : Nibble) (y : Nibble) : Statement (.ldReg x y) :=
  of_row 9 rfl
    ((covers_op_n _ 0x8#4 0x0#4 0x8000 _ rfl).trans (by simp [encodeWord]))

theorem orReg (x : Nibble) (y : Nibble) : Statement (.orReg x y) :=
  of_row 10 rfl
    ((covers_op_n _ 0x8#4 0x1#4 0x8001 _ rfl).trans (by simp [encodeWord]))

theorem andReg (x : Nibble) (y : Nibble) : Statement (.andReg x y) :=
  of_row 11 rfl
    ((covers_op_n _ 0x8#4 0x2#4 0x8002 _ rfl).trans (by simp [encodeWord]))

theorem xorReg (x : Nibble) (y : Nibble) : Statement (.xorReg x y) :=
  of_row 12 rfl
    ((covers_op_n _ 0x8#4 0x3#4 0x8003 _ rfl).trans (by simp [encodeWord]))

theorem addReg (x : Nibble) (y : Nibble) : Statement (.addReg x y) :=
  of_row 13 rfl
    ((covers_op_n _ 0x8#4 0x4#4 0x8004 _ rfl).trans (by simp [encodeWord]))

theorem sub (x : Nibble) (y : Nibble) : Statement (.sub x y) :=
  of_row 14 rfl
    ((covers_op_n _ 0x8#4 0x5#4 0x8005 _ rfl).trans (by simp [encodeWord]))

theorem shr (x : Nibble) (y : Nibble) : Statement (.shr x y) :=
  of_row 15 rfl
    ((covers_op_n _ 0x8#4 0x6#4 0x8006 _ rfl).trans (by simp [encodeWord]))

theorem subn (x : Nibble) (y : Nibble) : Statement (.subn x y) :=
  of_row 16 rfl
    ((covers_op_n _ 0x8#4 0x7#4 0x8007 _ rfl).trans (by simp [encodeWord]))

theorem shl (x : Nibble) (y : Nibble) : Statement (.shl x y) :=
  of_row 17 rfl
    ((covers_op_n _ 0x8#4 0xe#4 0x800E _ rfl).trans (by simp [encodeWord]))

theorem sneReg (x : Nibble) (y : Nibble) : Statement (.sneReg x y) :=
  of_row 18 rfl
    ((covers_op_n _ 0x9#4 0x0#4 0x9000 _ rfl).trans (by simp [encodeWord]))

theorem ldI (nnn : Addr) : Statement (.ldI nnn) :=
  of_row 19 rfl
    ((covers_op _ 0xa#4 0xA000 _ rfl).trans (by simp [encodeWord]))

theorem jpOff (x : Nibble) (nnn : Addr) : Statement (.jpOff x nnn) :=
  of_row 20 rfl
    ((covers_op _ 0xb#4 0xB000 _ rfl).trans (by simp [encodeWord]))

theorem rnd (x : Nibble) (nn : Byte) : Statement (.rnd x nn) :=
  of_row 21 rfl
    ((covers_op _ 0xc#4 0xC000 _ rfl).trans (by simp [encodeWord]))

theorem drw (x : Nibble) (y : Nibble) (n : Nibble) : Statement (.drw x y n) :=
  of_row 22 rfl
    ((covers_op _ 0xd#4 0xD000 _ rfl).trans (by simp [encodeWord]))

theorem skp (x : Nibble) : Statement (.skp x) :=
  of_row 23 rfl
    ((covers_op_nn _ 0xe#4 0x9e#8 0xE09E _ rfl).trans (by simp [encodeWord]))

theorem sknp (x : Nibble) : Statement (.sknp x) :=
  of_row 24 rfl
    ((covers_op_nn _ 0xe#4 0xa1#8 0xE0A1 _ rfl).trans (by simp [encodeWord]))

theorem ldFromDt (x : Nibble) : Statement (.ldFromDt x) :=
  of_row 25 rfl
    ((covers_op_nn _ 0xf#4 0x7#8 0xF007 _ rfl).trans (by simp [encodeWord]))

theorem ldKey (x : Nibble) : Statement (.ldKey x) :=
  of_row 26 rfl
    ((covers_op_nn _ 0xf#4 0xa#8 0xF00A _ rfl).trans (by simp [encodeWord]))

theorem ldDt (x : Nibble) : Statement (.ldDt x) :=
  of_row 27 rfl
    ((covers_op_nn _ 0xf#4 0x15#8 0xF015 _ rfl).trans (by simp [encodeWord]))

theorem ldSt (x : Nibble) : Statement (.ldSt x) :=
  of_row 28 rfl
    ((covers_op_nn _ 0xf#4 0x18#8 0xF018 _ rfl).trans (by simp [encodeWord]))

theorem addI (x : Nibble) : Statement (.addI x) :=
  of_row 29 rfl
    ((covers_op_nn _ 0xf#4 0x1e#8 0xF01E _ rfl).trans (by simp [encodeWord]))

theorem ldFont (x : Nibble) : Statement (.ldFont x) :=
  of_row 30 rfl
    ((covers_op_nn _ 0xf#4 0x29#8 0xF029 _ rfl).trans (by simp [encodeWord]))

theorem ldBcd (x : Nibble) : Statement (.ldBcd x) :=
  of_row 31 rfl
    ((covers_op_nn _ 0xf#4 0x33#8 0xF033 _ rfl).trans (by simp [encodeWord]))

theorem stRegs (x : Nibble) : Statement (.stRegs x) :=
  of_row 32 rfl
    ((covers_op_nn _ 0xf#4 0x55#8 0xF055 _ rfl).trans (by simp [encodeWord]))

theorem ldRegs (x : Nibble) : Statement (.ldRegs x) :=
  of_row 33 rfl
    ((covers_op_nn _ 0xf#4 0x65#8 0xF065 _ rfl).trans (by simp [encodeWord]))

theorem nop (w : Word) : Statement (.nop w) := fun h => .inr ⟨rfl, h⟩

end Sys2Proof.Laws.MatchesRow
end

