-- ==== Sys2Proof/Laws/Step.lean ====
section
/-! SUPPORT. What a step can do, said once: every instruction and every operation of the host answers a next state, what
none of them touches, and the three ways a `Step` goes (40_step_cycle.md rule R91).
-/

namespace Sys2Proof.Machine

/-- An instruction always answers a next state: a fault it raises is one too (R176). -/
theorem exec_next (i : Instr) (s : State) : ∃ t, exec i s = .next t := by
  cases i <;> simp only [exec] <;>
   first
   | exact ⟨_, rfl⟩
   | (unfold execRet; split <;> exact ⟨_, rfl⟩)
   | (unfold execCall; split <;> exact ⟨_, rfl⟩)
   | (unfold execLdFont; dsimp only; split <;> exact ⟨_, rfl⟩)
   | (unfold execLdBcd; split <;> exact ⟨_, rfl⟩)
   | (unfold execStRegs; split <;> exact ⟨_, rfl⟩)
   | (unfold execLdRegs; split <;> exact ⟨_, rfl⟩)
   | (unfold execDrw; split <;> exact ⟨_, rfl⟩)

/-- The host's side and the parameters are the same in both states. -/
structure SameHost (s t : State) : Prop where
  /-- The parameters. -/
  params : t.params = s.params
  /-- The keypad argument. -/
  key : t.key = s.key
  /-- The random-byte argument. -/
  rnd : t.rnd = s.rnd
  /-- The coming operations. -/
  ops : t.ops = s.ops
  /-- The count of free arguments. -/
  inputNo : t.inputNo = s.inputNo
  /-- The last reply. -/
  reply : t.reply = s.reply

/-- No instruction touches the host's side or the parameters. -/
theorem exec_sameHost {i : Instr} {s t : State} (h : exec i s = .next t) : SameHost s t := by
  cases i <;> simp only [exec] at h <;>
   first
   | (cases h; constructor <;> rfl)
   | (unfold execRet at h; split at h <;> cases h <;> constructor <;> rfl)
   | (unfold execCall at h; split at h <;> cases h <;> constructor <;> rfl)
   | (unfold execLdKey at h; cases h; split <;> constructor <;> rfl)
   | (unfold execLdFont at h; dsimp only at h; split at h <;> cases h <;> constructor <;> rfl)
   | (unfold execLdBcd at h; split at h <;> cases h <;> constructor <;> rfl)
   | (unfold execStRegs at h; split at h <;> cases h <;> constructor <;> rfl)
   | (unfold execLdRegs at h; split at h <;> cases h <;> constructor <;> simp)
   | (unfold execDrw at h; split at h <;> cases h <;> constructor <;> simp)

/-- A `Step` on a faulted machine (R91 step 1). -/
theorem hostStep_of_fault {s : State} {c : FaultCause} (h : s.fault = some c) (key : Option Nibble) (rnd : Byte) :
    hostStep key rnd s = .next (s.answer (.status (.fatal c))) := by
  unfold hostStep
  split
  · rename_i c' h'
    rw [h] at h'
    cases h'
    rfl
  · rename_i h'
    rw [h] at h'
    cases h'

/-- A `Step` past the end of memory (R91 step 2). -/
theorem hostStep_of_end {s : State} (h : s.fault = none) (hpc : s.pc.toNat > 0xFFE) (key : Option Nibble) (rnd : Byte) :
    hostStep key rnd s = .next (s.answer (.status .endOfMemory)) := by
  unfold hostStep
  split
  · rename_i c' h'
    rw [h] at h'
    cases h'
  · rw [if_pos (by simpa [State.atEnd] using hpc)]

/-- A `Step` of a running machine (R91 steps 3 to 6). -/
theorem hostStep_of_running {s : State} (h : s.fault = none) (hpc : s.pc.toNat ≤ 0xFFE) (key : Option Nibble)
    (rnd : Byte) : hostStep key rnd s = runInstr key rnd s := by
  unfold hostStep
  split
  · rename_i c' h'
    rw [h] at h'
    cases h'
  · rw [if_neg (by simp [State.atEnd]; omega)]

/-- The executed instruction's state goes on with the status as the reply. -/
theorem runInstr_eq {s t : State} {key : Option Nibble} {rnd : Byte}
    (h : exec (decodeWord s.fetchWord) (s.latch key rnd) = .next t) :
    runInstr key rnd s = .next (t.answer (.status t.statusAfter)) := by
  simp only [runInstr, h, settle]

/-- The three ways of a `Step`, as one inversion. -/
theorem hostStep_cases {s u : State} {key : Option Nibble} {rnd : Byte} (h : hostStep key rnd s = .next u) :
    (∃ c, s.fault = some c ∧ u = s.answer (.status (.fatal c))) ∨
    (s.fault = none ∧ s.pc.toNat > 0xFFE ∧ u = s.answer (.status .endOfMemory)) ∨
    (s.fault = none ∧ s.pc.toNat ≤ 0xFFE ∧
      ∃ t, exec (decodeWord s.fetchWord) (s.latch key rnd) = .next t ∧ u = t.answer (.status t.statusAfter)) := by
  cases hf : s.fault with
  | some c =>
    rw [hostStep_of_fault hf] at h
    cases h
    exact .inl ⟨c, rfl, rfl⟩
  | none =>
    by_cases hpc : s.pc.toNat > 0xFFE
    · rw [hostStep_of_end hf hpc] at h
      cases h
      exact .inr (.inl ⟨rfl, hpc, rfl⟩)
    · obtain ⟨t, ht⟩ := exec_next (decodeWord s.fetchWord) (s.latch key rnd)
      rw [hostStep_of_running hf (by omega), runInstr_eq ht] at h
      cases h
      exact .inr (.inr ⟨rfl, by omega, t, ht, rfl⟩)

/-- Every operation of the host answers a next state. -/
theorem perform_next (op : HostOp) (s : State) : ∃ t, perform op s = .next t := by
  cases op with
  | reset => exact ⟨_, rfl⟩
  | load base bytes => exact ⟨_, rfl⟩
  | tick => exact ⟨_, rfl⟩
  | step key rnd =>
    cases hf : s.fault with
    | some c => exact ⟨_, hostStep_of_fault hf key rnd⟩
    | none =>
      by_cases hpc : s.pc.toNat > 0xFFE
      · exact ⟨_, hostStep_of_end hf hpc key rnd⟩
      · obtain ⟨t, ht⟩ := exec_next (decodeWord s.fetchWord) (s.latch key rnd)
        exact ⟨_, (hostStep_of_running hf (by omega) key rnd).trans (runInstr_eq ht)⟩

/-- The operation that is due, and a state that differs from `s` in `ops` and `inputNo` only. -/
theorem nextOp_eq (s : State) : ∃ ops n, s.nextOp.2 = { s with ops := ops, inputNo := n } ∧
    ((∃ op, s.nextOp.1 = op ∧ s.ops = op :: ops) ∨ (s.nextOp.1.isStep = true ∧ s.ops = [] ∧ ops = [])) := by
  cases h : s.ops with
  | nil => rw [s.nextOp_nil h]; exact ⟨[], s.inputNo + 1, by rw [← h], .inr ⟨rfl, rfl, rfl⟩⟩
  | cons op rest => rw [s.nextOp_cons h]; exact ⟨rest, s.inputNo, rfl, .inl ⟨op, rfl, rfl⟩⟩

end Sys2Proof.Machine
end

