-- ==== Sys2Proof/Tests/Slice0.lean ====
section
/-! SUPPORT. The model's own tests. Expected results are those of spec/95_test_vectors.md (its vector ids stand in the
comments) and of the rules named. The `test_witness_` theorems show states and operands that meet an obligation's
hypotheses, one for each clause.
-/

namespace Sys2Proof.Tests

open Sys2Proof Sys2Proof.Machine

/-! ### Helpers -/

/-- The start state of the vectors: the reset state with `FONT_BASE = 0x050`. -/
def base : State :=
  { State.reset with
    params := { fontBase := 0x050, fontData := Vector.replicate 80 0xAA, stackDepth := 16, jumpUsesV0 := false } }

/-- `base` with registers set. -/
def regs (l : List (Nibble × Byte)) : State := l.foldl (fun s p => s.writeV p.1 p.2) base

/-- The same with `I` and bytes at an address. -/
def withMem (s : State) (idx : Word) (a : Nat) (bs : List Byte) : State :=
  (s.setIdx idx).setMem (Memory.writeBytes [] a bs)

/-- The state with `n` stack entries. -/
def withStack (n : Nat) : State := base.setStack (List.replicate n 0x0202)

/-- The next state, if that is the answer. -/
def next? (r : Result) : Option State :=
  match r with
  | .next t => some t
  | .fault _ => none
  | .refused _ => none

/-- The state after the word is decoded and executed. -/
def after (w : Word) (s : State) : Option State := next? (exec (decodeWord w) s)

/-- What the tests look at: `V[x]`, `VF`, `pc`. -/
def see (x : Nibble) (t : State) : Byte × Byte × Word := (t.readV x, t.readV 0xF, t.pc)

/-! ### Well-formedness and the opcode map -/

/-- In `BXNN` the register is the top nibble of the address (R71). -/
theorem test_wf_refuses_other_register : (Instr.jpOff 3 0x210).wf = false := by decide

/-- A `NOP` carries an unrecognised word only (R77). -/
theorem test_wf_refuses_recognised_nop : (Instr.nop 0x00E0).wf = false ∧ (Instr.nop 0x8120).wf = false := by decide

/-- No word belongs to two rows (30_encoding.md section 4). -/
theorem test_rows_disjoint :
    opcodeRows.Pairwise (fun a b => a.value &&& (a.mask &&& b.mask) ≠ b.value &&& (a.mask &&& b.mask)) := by decide

/-- There are 34 rows (R74). -/
theorem test_rows_count : opcodeRows.length = 34 := by decide

/-! ### Decoding: words written out from the table of R74 -/

theorem test_decode_flow :
    decodeWord 0x00EE = .ret ∧ decodeWord 0x1234 = .jp 0x234 ∧ decodeWord 0x2ABC = .call 0xABC ∧
    decodeWord 0xB210 = .jpOff 0x2 0x210 := by decide

theorem test_decode_skips :
    decodeWord 0x3A05 = .seImm 0xA 0x05 ∧ decodeWord 0x4A05 = .sneImm 0xA 0x05 ∧ decodeWord 0x5120 = .seReg 1 2 ∧
    decodeWord 0x9120 = .sneReg 1 2 ∧ decodeWord 0xE39E = .skp 3 ∧ decodeWord 0xE3A1 = .sknp 3 := by decide

theorem test_decode_immediates :
    decodeWord 0x600C = .ldImm 0 0x0C ∧ decodeWord 0x7A01 = .addImm 0xA 0x01 ∧ decodeWord 0xC3F0 = .rnd 3 0xF0 ∧
    decodeWord 0xA2F0 = .ldI 0x2F0 := by decide

theorem test_decode_alu :
    decodeWord 0x8120 = .ldReg 1 2 ∧ decodeWord 0x8121 = .orReg 1 2 ∧ decodeWord 0x8122 = .andReg 1 2 ∧
    decodeWord 0x8123 = .xorReg 1 2 ∧ decodeWord 0x8124 = .addReg 1 2 ∧ decodeWord 0x8125 = .sub 1 2 ∧
    decodeWord 0x81F6 = .shr 1 0xF ∧ decodeWord 0x8127 = .subn 1 2 ∧ decodeWord 0x812E = .shl 1 2 := by decide

theorem test_decode_memory :
    decodeWord 0xF21E = .addI 2 ∧ decodeWord 0xF529 = .ldFont 5 ∧ decodeWord 0xF033 = .ldBcd 0 ∧
    decodeWord 0xFF55 = .stRegs 0xF ∧ decodeWord 0xF165 = .ldRegs 1 := by decide

theorem test_decode_display_timers :
    decodeWord 0x00E0 = .cls ∧ decodeWord 0xDF15 = .drw 0xF 1 5 ∧ decodeWord 0xF407 = .ldFromDt 4 ∧
    decodeWord 0xF30A = .ldKey 3 ∧ decodeWord 0xF115 = .ldDt 1 ∧ decodeWord 0xF218 = .ldSt 2 := by decide

/-- T-N2: unrecognised words. -/
theorem test_decode_unrecognised :
    [0x0000, 0x5AB1, 0x9121, 0x8128, 0x0123, 0xE0FF, 0xF0FF, 0x00E1, 0x00EF].all
      (fun w => decodeWord w == .nop w) = true := by decide

/-- T-S6: the high byte stands first (R53); the rest is handed back. -/
theorem test_decode_bytes :
    decode [0x60, 0x0C, 0x70, 0x05] = .ok (.ldImm 0 0x0C, [0x70, 0x05]) ∧ decode [0x60] = .error .truncated ∧
    encode (.addImm 0 0x05) = [0x70, 0x05] := by decide

theorem test_decode_table_word :
    decodeTableWord 16 0xD012 = some (.drw 0 1 2) ∧ decodeTableWord 16 0xFFFF = some (.nop 0xFFFF) := by decide

/-! ### The step cycle -/

/-- T-S6: from reset, the placed word is fetched and executed (R91). -/
theorem test_step_runs_placed_word :
    (next? (step (State.reset.withFetchWord 16 0x600C))).map (see 0) = some (0x0C, 0, 0x202) := by decide

/-- T-N6: an odd `pc` is fetched from as any other (R31, R53). -/
theorem test_step_odd_pc :
    (next? (perform (.step none 0) (withMem (base.goto 0x201) 0 0x201 [0x61, 0x07]))).map
      (fun t => (t.readV 1, t.pc, t.reply)) = some (0x07, 0x203, .status .continues) := by decide

/-- T-N3: the last word of memory is executed, then the memory has ended (R57, R91). -/
theorem test_step_end_of_memory :
    (next? (perform (.step none 0) (base.goto 0xFFE))).map (fun t => (t.pc, t.reply)) =
        some (0x1000, .status .continues) ∧
    (next? (perform (.step none 0) (base.goto 0xFFF))).map (fun t => (t.pc, t.reply)) =
        some (0xFFF, .status .endOfMemory) := by decide

/-- T-N7: a faulted machine answers `Fatal`, and its timers still run (R178). -/
theorem test_faulted_step_and_tick :
    (next? (perform (.step none 0) (base.raise .stackUnderflow))).map (fun t => (t.pc, t.reply)) =
        some (0x200, .status (.fatal .stackUnderflow)) ∧
    (next? (perform .tick ((base.raise .stackUnderflow).setDt 3))).map (·.dt) = some 2 := by decide

/-- T-N1, T-N2. -/
theorem test_nop : (after 0x9121 (regs [(1, 1), (2, 2), (0xF, 9)])).map (see 1) = some (1, 9, 0x202) := by decide

/-! ### Control transfer -/

/-- T-F2: an odd target. -/
theorem test_jp : (after 0x1201 base).map (·.pc) = some 0x201 := by decide

/-- T-F5: the return address of a `CALL` in the last word of memory. -/
theorem test_call : (after 0x2ABC (base.goto 0xFFE)).map (fun t => (t.stack, t.pc)) = some ([0x1000], 0xABC) := by decide

/-- T-F8: a full stack. -/
theorem test_call_overflow :
    (after 0x2300 (withStack 16)).map (fun t => (t.faultCode, t.stack.length, t.pc)) = some (2, 16, 0x200) := by decide

/-- T-F6. -/
theorem test_ret : (after 0x00EE (withStack 1)).map (fun t => (t.stack, t.pc)) = some ([], 0x202) := by decide

/-- T-F7. -/
theorem test_ret_underflow : (after 0x00EE base).map (fun t => (t.faultCode, t.pc)) = some (1, 0x200) := by decide

/-- T-F9, both values of `JUMP_USES_V0`. -/
theorem test_jpOff :
    (after 0xB210 (regs [(2, 0x04), (0, 0x10)])).map (·.pc) = some 0x214 ∧
    (after 0xB210 { regs [(2, 0x04), (0, 0x10)] with
      params := { base.params with jumpUsesV0 := true } }).map (·.pc) = some 0x220 := by decide

/-- T-F10: past the end of memory, not wrapped. -/
theorem test_jpOff_past_end : (after 0xBFFF (regs [(0xF, 0xFF)])).map (·.pc) = some 0x10FE := by decide

/-! ### Skips -/

/-- T-K1, T-K2. -/
theorem test_seImm :
    (after 0x3A05 (regs [(0xA, 5)])).map (·.pc) = some 0x204 ∧
    (after 0x3A05 (regs [(0xA, 6)])).map (·.pc) = some 0x202 := by decide

/-- T-K3, T-K4. -/
theorem test_sneImm :
    (after 0x4A05 (regs [(0xA, 5)])).map (·.pc) = some 0x202 ∧
    (after 0x4A05 (regs [(0xA, 6)])).map (·.pc) = some 0x204 := by decide

/-- T-K5, T-K6. -/
theorem test_seReg :
    (after 0x5120 (regs [(1, 0x7F), (2, 0x7F)])).map (·.pc) = some 0x204 ∧
    (after 0x5120 (regs [(1, 1), (2, 2)])).map (·.pc) = some 0x202 := by decide

/-- T-K8, T-K9. -/
theorem test_sneReg :
    (after 0x9120 (regs [(1, 1), (2, 2)])).map (·.pc) = some 0x204 ∧
    (after 0x9330 (regs [(3, 7)])).map (·.pc) = some 0x202 := by decide

/-- T-K10, T-K11, T-K12, T-K16: no masking of `V[X]`. -/
theorem test_skp :
    (after 0xE39E ((regs [(3, 0x0A)]).latch none 0)).map (·.pc) = some 0x202 ∧
    (after 0xE39E ((regs [(3, 0x0A)]).latch (some 0xA) 0)).map (·.pc) = some 0x204 ∧
    (after 0xE39E ((regs [(3, 0x0A)]).latch (some 0x1) 0)).map (·.pc) = some 0x202 ∧
    (after 0xE39E ((regs [(3, 0x1A)]).latch (some 0xA) 0)).map (·.pc) = some 0x202 := by decide

/-- T-K13, T-K14, T-K15, T-K16. -/
theorem test_sknp :
    (after 0xE3A1 ((regs [(3, 0x0A)]).latch none 0)).map (·.pc) = some 0x204 ∧
    (after 0xE3A1 ((regs [(3, 0x0A)]).latch (some 0xA) 0)).map (·.pc) = some 0x202 ∧
    (after 0xE3A1 ((regs [(3, 0x0A)]).latch (some 0x1) 0)).map (·.pc) = some 0x204 ∧
    (after 0xE3A1 ((regs [(3, 0x1A)]).latch (some 0xA) 0)).map (·.pc) = some 0x204 := by decide

/-! ### Arithmetic and logic -/

/-- T-A0. -/
theorem test_ldImm : (after 0x600C base).map (see 0) = some (0x0C, 0, 0x202) := by decide

/-- T-A1: no flag. -/
theorem test_addImm : (after 0x7A01 (regs [(0xA, 0xFF), (0xF, 7)])).map (see 0xA) = some (0x00, 7, 0x202) := by decide

/-- T-A21. -/
theorem test_ldReg : (after 0x8120 (regs [(2, 0x5A)])).map (see 1) = some (0x5A, 0, 0x202) := by decide

/-- T-A18: no flag. -/
theorem test_orReg : (after 0x8121 (regs [(1, 0xF0), (2, 0x0F), (0xF, 9)])).map (see 1) = some (0xFF, 9, 0x202) := by decide

/-- T-A20. -/
theorem test_andReg : (after 0x8122 (regs [(1, 0xF3), (2, 0x3F)])).map (see 1) = some (0x33, 0, 0x202) := by decide

/-- T-A19. -/
theorem test_xorReg : (after 0x8113 (regs [(1, 0xAB), (0xF, 9)])).map (see 1) = some (0x00, 9, 0x202) := by decide

/-- T-A3, T-A4. -/
theorem test_addReg :
    (after 0x8124 (regs [(1, 200), (2, 100)])).map (see 1) = some (0x2C, 1, 0x202) ∧
    (after 0x8124 (regs [(1, 100), (2, 155)])).map (see 1) = some (0xFF, 0, 0x202) := by decide

/-- T-A6, T-A7: the flag wins over the sum; `VF` as a source is read before the flag is written. -/
theorem test_addReg_flag_register :
    (after 0x8F14 (regs [(0xF, 200), (1, 100)])).map (see 1) = some (100, 1, 0x202) ∧
    (after 0x81F4 (regs [(1, 0xFF), (0xF, 1)])).map (see 1) = some (0x00, 1, 0x202) := by decide

/-- T-A8, T-A9. -/
theorem test_sub :
    (after 0x8125 (regs [(1, 5), (2, 10)])).map (see 1) = some (0xFB, 0, 0x202) ∧
    (after 0x8125 (regs [(1, 7), (2, 7)])).map (see 1) = some (0, 1, 0x202) := by decide

/-- T-A10: the difference is lost. -/
theorem test_sub_flag_register : (after 0x8F15 (regs [(0xF, 3), (1, 5)])).map (see 1) = some (5, 0, 0x202) := by decide

/-- T-A11, T-A12. -/
theorem test_subn :
    (after 0x8127 (regs [(1, 10), (2, 5)])).map (see 1) = some (0xFB, 0, 0x202) ∧
    (after 0x8127 (regs [(1, 5), (2, 10)])).map (see 1) = some (5, 1, 0x202) := by decide

/-- T-A13, T-A15: `Y` is ignored; the bit shifted out wins over the result. -/
theorem test_shr :
    (after 0x81F6 (regs [(1, 0x05), (0xF, 0x80)])).map (see 1) = some (0x02, 1, 0x202) ∧
    (after 0x8F06 (regs [(0xF, 2)])).map (see 1) = some (0, 0, 0x202) := by decide

/-- T-A16, T-A17. -/
theorem test_shl :
    (after 0x812E (regs [(1, 0x81), (2, 0x55)])).map (see 1) = some (0x02, 1, 0x202) ∧
    (after 0x8FFE (regs [(0xF, 0xC0)])).map (see 1) = some (0, 1, 0x202) := by decide

/-- T-A22. -/
theorem test_rnd : (after 0xC3F0 (base.latch none 0xA7)).map (see 3) = some (0xA0, 0, 0x202) := by decide

/-! ### Index register and memory -/

/-- T-M0. -/
theorem test_ldI : (after 0xA2F0 base).map (fun t => (t.idx, t.pc)) = some (0x02F0, 0x202) := by decide

/-- T-M9: wraps at 16 bits, no flag. -/
theorem test_addI :
    (after 0xF21E ((regs [(2, 2), (0xF, 5)]).setIdx 0xFFFF)).map (fun t => (t.idx, t.readV 0xF)) = some (0x0001, 5) := by decide

/-- T-M11. -/
theorem test_ldFont : (after 0xF529 (regs [(5, 0x0A)])).map (·.idx) = some 0x0082 := by decide

/-- T-M12. -/
theorem test_ldFont_range :
    (after 0xF529 ((regs [(5, 0x10)]).setIdx 0x123)).map (fun t => (t.idx, t.faultCode, t.pc)) =
      some (0x123, 4, 0x200) := by decide

/-- T-M1, T-M2: `I = 0xFFD` is the last legal address. -/
theorem test_ldBcd :
    (after 0xF033 ((regs [(0, 156)]).setIdx 0x300)).map (fun t => t.mem) =
      some [(0x300, 1), (0x301, 5), (0x302, 6)] ∧
    (after 0xF033 ((regs [(0, 255)]).setIdx 0xFFD)).map (fun t => t.mem) =
      some [(0xFFD, 2), (0xFFE, 5), (0xFFF, 5)] := by decide

/-- T-M3: no byte is written. -/
theorem test_ldBcd_range :
    (after 0xF033 ((regs [(0, 255)]).setIdx 0xFFE)).map (fun t => (t.mem, t.faultCode, t.pc)) =
      some ([], 3, 0x200) := by decide

/-- T-M4: ascending, inclusive, `I` stays. -/
theorem test_stRegs :
    (after 0xF255 (withMem (regs [(0, 1), (1, 2), (2, 3), (3, 4)]) 0x400 0x403 [0xEE])).map (fun t => (t.mem, t.idx)) =
      some ([(0x400, 1), (0x401, 2), (0x402, 3), (0x403, 0xEE)], 0x400) := by decide

/-- T-M6, T-M6b. -/
theorem test_stRegs_range :
    (after 0xFF55 ((regs [(0, 0x10)]).setIdx 0xFF1)).map (fun t => (t.mem, t.faultCode)) = some ([], 3) ∧
    (after 0xF055 ((regs [(0, 0xAB)]).setIdx 0xFFF)).map (fun t => (t.mem, t.faultCode)) = some ([(0xFFF, 0xAB)], 0) := by
  decide

/-- T-M7. -/
theorem test_ldRegs :
    (after 0xF165 (withMem (regs [(2, 0x77)]) 0x400 0x400 [0xAA, 0xBB, 0xCC])).map
      (fun t => (t.readV 0, t.readV 1, t.readV 2, t.idx)) = some (0xAA, 0xBB, 0x77, 0x400) := by decide

/-- T-M8. -/
theorem test_ldRegs_range :
    (after 0xF165 ((regs [(0, 9)]).setIdx 0xFFF)).map (fun t => (t.readV 0, t.readV 1, t.faultCode)) =
      some (9, 0, 3) := by decide

/-! ### Display -/

/-- T-D11: whatever the screen was; no flag. -/
theorem test_cls :
    (after 0x00E0 ((regs [(0xF, 1)]).setCell 3 4 true)).map (fun t => (t.cell 3 4, t.readV 0xF, t.pc)) =
      some (false, 1, 0x202) := by decide

/-- T-D1 and T-D2: pixels clip at the right and bottom edges, the start wraps. -/
theorem test_drw_edges :
    (withMem (regs [(0, 62), (1, 31), (0xF, 7)]) 0x300 0x300 [0xF0, 0x90]).spriteCells 0 1 2 = [(31, 62), (31, 63)] ∧
    (withMem (regs [(0, 70), (1, 33)]) 0x300 0x300 [0x80]).spriteCells 0 1 1 = [(1, 6)] := by decide

/-- T-D6: the last lit bit decides `VF`; the collision before it is forgotten. -/
theorem test_drw_last_bit :
    (after 0xD011 ((withMem base 0x300 0x300 [0xC0]).setCell 0 0 true)).map
      (fun t => (t.cell 0 0, t.cell 0 1, t.readV 0xF)) = some (false, true, 0) := by decide

/-! ### Timers, keypad, the host's operations -/

/-- T-T1. -/
theorem test_ldFromDt : (after 0xF407 (base.setDt 0x2A)).map (fun t => (t.readV 4, t.dt)) = some (0x2A, 0x2A) := by decide

/-- T-T6: waiting without a key, going on with one. -/
theorem test_ldKey :
    (after 0xF30A (base.latch none 0)).map (see 3) = some (0, 0, 0x200) ∧
    (after 0xF30A (base.latch (some 0xA) 0)).map (see 3) = some (0x0A, 0, 0x202) := by decide

/-- T-T2. -/
theorem test_ldDt : (after 0xF115 (regs [(1, 60)])).map (·.dt) = some 60 := by decide

/-- T-T3. -/
theorem test_ldSt : (after 0xF218 (regs [(2, 5)])).map (fun t => (t.st, t.soundOn)) = some (5, true) := by decide

/-- T-T5, T-T8. -/
theorem test_tick :
    (next? (perform .tick ((base.setDt 255).setSt 1))).map (fun t => (t.dt, t.st, t.soundOn)) = some (254, 0, false) ∧
    (next? (perform .tick base)).map (fun t => (t.dt, t.st)) = some (0, 0) := by decide

/-- T-L3, T-L4. -/
theorem test_load :
    (next? (perform (.load 4095 [9]) base)).map (fun t => (t.mem, t.reply)) = some ([(0xFFF, 9)], .loadOk) ∧
    (next? (perform (.load 4096 [9]) base)).map (fun t => (t.mem, t.reply)) = some ([], .loadError) := by decide

/-- R200, R202: what `Reset()` clears and what it leaves. -/
theorem test_host_reset :
    (next? (perform .reset ((withMem (withStack 3) 0x300 0x300 [1]).raise .memRange))).map
      (fun t => (t.mem, t.stack, t.faultCode, t.params.fontBase)) = some ([], [], 0, 0x050) := by decide

/-! ### Witnesses: encoding and step cycle -/

theorem test_witness_DecodeOfEncode : (Instr.jpOff 2 0x210).wf = true ∧ (Instr.nop 0x5AB1).wf = true := by decide

/-- A row and a word it covers, one that no row covers. -/
theorem test_witness_DecodeFollowsOpcodeMap :
    (⟨"SHL_VX", 0xF00F, 0x800E⟩ : OpcodeRow) ∈ opcodeRows ∧
    (⟨"SHL_VX", 0xF00F, 0x800E⟩ : OpcodeRow).covers 0x8FFE = true ∧ unrecognised 0x800F = true := by decide

theorem test_witness_DispatchDecodesEveryPattern : (0x0E1 : Addr) ≠ 0x0E0 ∧ (0x0E1 : Addr) ≠ 0x0EE := by decide

/-- The last `pc` that is fetched from, an operation written down; the word there is 0x0000. -/
theorem test_witness_StepRunsDecodedInstruction_written :
    let s : State := { base with pc := 0xFFE, ops := [.step (some 3) 9, .tick] }
    s.fault = none ∧ s.pc.toNat ≤ 0xFFE ∧ s.ops = .step (some 3) 9 :: [.tick] ∧
      decodeWord (s.memByte s.pc.toNat ++ s.memByte (s.pc.toNat + 1)) = .nop 0 ∧ (Instr.nop 0).wf = true ∧
      ∃ t, exec (.nop 0) { s with ops := [.tick], key := some 3, rnd := 9 } = .next t := by
  refine ⟨rfl, by decide, rfl, by decide, by decide, _, rfl⟩

/-- From reset, nothing written down. -/
theorem test_witness_StepRunsDecodedInstruction_free :
    let s := State.reset
    s.fault = none ∧ s.pc.toNat ≤ 0xFFE ∧ s.ops = [] ∧
      decodeWord (s.memByte s.pc.toNat ++ s.memByte (s.pc.toNat + 1)) = .nop 0 ∧ (Instr.nop 0).wf = true ∧
      ∃ t, exec (.nop 0) { s with inputNo := s.inputNo + 1, key := Config.freeKey s.inputNo,
                                  rnd := Config.freeRnd s.inputNo } = .next t := by
  refine ⟨rfl, by decide, rfl, by decide, by decide, _, rfl⟩

/-- A fault with `pc` past the end (the fault is tested first), and the end alone. -/
theorem test_witness_StoppedStepChangesNothing :
    ((base.goto 0xFFF).raise .memRange).fault = some .memRange ∧
    (base.goto 0xFFF).fault = none ∧ (base.goto 0xFFF).pc.toNat > 0xFFE := by decide

/-- A canonical memory, and a faulted state past the end with a `Tick` before the `Step`. -/
theorem test_witness_PlacedWordIsFetched :
    ({ base with mem := [(0x300, 1), (0xFFF, 2)], pc := 0x1000, fault := some .memRange, ops := [.tick] } : State).mem.wf := by
  decide

theorem test_witness_NopOnlyAdvances : unrecognised 0x0000 = true ∧ unrecognised 0x5AB1 = true := by decide

/-! ### Witnesses: memory and control transfer -/

/-- P7's shape, and the highest `pc` of the statement. -/
theorem test_witness_FetchSeesStore :
    (let s := withMem (base.goto 0x206) 0x208 0x300 [1]
     s.mem.wf ∧ s.pc.toNat ≤ 0xFFC ∧ s.idx.toNat = s.pc.toNat + 2 ∧ 1 ≤ (1 : Nibble).toNat ∧
      s.idx.toNat + (1 : Nibble).toNat ≤ 4095) ∧
    (let s := withMem (base.goto 0xFFC) 0xFFE 0x300 [1]
     s.mem.wf ∧ s.pc.toNat ≤ 0xFFC ∧ s.idx.toNat = s.pc.toNat + 2 ∧ s.idx.toNat + (1 : Nibble).toNat ≤ 4095) := by
  decide

/-- Up to the last byte of memory, and one byte past it. -/
theorem test_witness_LoadIsAllOrNothing :
    (withMem base 0 0x300 [1]).mem.wf ∧ 4095 + [(9 : Byte)].length ≤ 4096 ∧ 4096 < 4096 + [(9 : Byte)].length := by decide

theorem test_witness_ReturnPopsStack :
    (withStack 2).stack = 0x0202 :: [0x0202] ∧ (withStack 0).stack = [] := by decide

/-- One place left, and none. -/
theorem test_witness_CallPushesReturnAddress :
    (withStack 15).stack.length < (withStack 15).params.stackDepth ∧
    (withStack 16).params.stackDepth ≤ (withStack 16).stack.length := by decide

/-- One place left; the state the subroutine leaves, with other registers. -/
theorem test_witness_CallThenReturnResumes :
    (withStack 15).stack.length < (withStack 15).params.stackDepth ∧
    (after 0x2300 (withStack 15)).map (·.stack) = some ((regs [(1, 7)]).setStack (List.replicate 16 0x0202)).stack := by
  decide

theorem test_witness_SkipOnImmediate :
    (regs [(0xA, 5)]).readV 0xA = 0x05#8 ∧ (regs [(0xA, 6)]).readV 0xA ≠ 0x05#8 := by decide

theorem test_witness_SkipOnRegisters :
    (regs [(1, 7), (2, 7)]).readV 1 = (regs [(1, 7), (2, 7)]).readV 2 ∧ (1 : Nibble) ≠ 0 ∧
    (regs [(1, 7), (2, 8)]).readV 1 ≠ (regs [(1, 7), (2, 8)]).readV 2 := by decide

/-- The key of the register's value; no key; a value above 15 with the key of its low nibble; another key. -/
theorem test_witness_SkipOnKey :
    ((regs [(3, 0xF)]).latch (some 0xF) 0).key = some 0xF ∧ (0xF : Nibble).toNat = ((regs [(3, 0xF)]).readV 3).toNat ∧
    ((regs [(3, 0xF)]).latch none 0).key = none ∧ ((regs [(3, 0x10)]).readV 3).toNat > 15 ∧
    (((regs [(3, 0xF)]).latch (some 0xE) 0).key = some 0xE ∧
      (0xE : Nibble).toNat ≠ ((regs [(3, 0xF)]).readV 3).toNat) := by decide

/-! ### Witnesses: arithmetic, index register, transfers -/

theorem test_witness_LogicWritesNoFlag :
    decodeWord (0x8#4 ++ 1#4 ++ 2#4 ++ 0x1#4) = .orReg 1 2 ∧ decodeWord (0x8#4 ++ 1#4 ++ 2#4 ++ 0x2#4) = .andReg 1 2 ∧
    decodeWord (0x8#4 ++ 1#4 ++ 2#4 ++ 0x3#4) = .xorReg 1 2 := by decide

/-- A destination that is not `VF`, for the clauses about the result in AddSetsCarry, SubtractSetsNotBorrow and
ShiftsSetBitOut; their other clauses have no hypothesis. -/
theorem test_witness_result_clauses : (0xE : Nibble) ≠ 0xF#4 := by decide

/-- A bit position, for the bitwise clauses of LogicWritesNoFlag and RandomIsMasked. -/
theorem test_witness_bit_clauses : (7 : Nat) < 8 := by decide

/-- The last digit and the first value above. -/
theorem test_witness_FontSpriteAddress :
    ((regs [(5, 15)]).readV 5).toNat ≤ 15 ∧ 15 < ((regs [(5, 16)]).readV 5).toNat := by decide

/-- `I = 4093` and `I = 4094`. -/
theorem test_witness_BcdStoresThreeDigits :
    (withMem base 0xFFD 0x300 [1]).mem.wf ∧ (withMem base 0xFFD 0x300 [1]).idx.toNat + 2 ≤ 4095 ∧
    (withMem base 0xFFE 0x300 [1]).mem.wf ∧ 4095 < (withMem base 0xFFE 0x300 [1]).idx.toNat + 2 := by decide

/-- `X = 15` at `I = 0xFF0` and at `I = 0xFF1`; also for LoadRegistersAscending. -/
theorem test_witness_StoreRegistersAscending :
    (withMem base 0xFF0 0x300 [1]).mem.wf ∧ (withMem base 0xFF0 0x300 [1]).idx.toNat + (15 : Nibble).toNat ≤ 4095 ∧
    (withMem base 0xFF1 0x300 [1]).mem.wf ∧ 4095 < (withMem base 0xFF1 0x300 [1]).idx.toNat + (15 : Nibble).toNat ∧
    (15 : Nibble).toNat ≤ (15 : Nibble).toNat := by decide

theorem test_witness_LoadRegistersAscending :
    (base.setIdx 0xFFF).idx.toNat + (0 : Nibble).toNat ≤ 4095 ∧ 4095 < (base.setIdx 0xFFF).idx.toNat + (1 : Nibble).toNat ∧
    (0 : Nibble).toNat ≤ (0 : Nibble).toNat := by decide

/-- The store at the top of memory, and a later state with its memory and `I` and other registers. -/
theorem test_witness_StoreThenLoadRestores :
    (withMem (regs [(0, 7)]) 0xFFF 0x300 [1]).mem.wf ∧
    (withMem (regs [(0, 7)]) 0xFFF 0x300 [1]).idx.toNat + (0 : Nibble).toNat ≤ 4095 ∧
    (after 0xF055 (withMem (regs [(0, 7)]) 0xFFF 0x300 [1])).map (fun t => (t.mem, t.idx)) =
      some ([(0x300, 1), (0xFFF, 7)], 0xFFF) ∧
    (let u : State := { regs [(0, 9), (3, 3)] with mem := [(0x300, 1), (0xFFF, 7)], idx := 0xFFF }
     (u.mem, u.idx) = ([(0x300, 1), (0xFFF, 7)], 0xFFF)) := by decide

/-! ### Witnesses: display -/

/-- No row at all, `I` anywhere (T-D3); the last row's byte at 4095 (T-D8b). -/
theorem test_witness_DrawTogglesSprite :
    (base.setIdx 0xFFFF).rowsOnScreen 1 0 = 0 ∧
    ((regs [(1, 31)]).setIdx 0xFFF).idx.toNat + ((regs [(1, 31)]).setIdx 0xFFF).rowsOnScreen 1 2 - 1 ≤ 4095 := by decide

/-- T-D6b's sprite: the cells (0,0) and (0,1), of which (0,1) is the last in scan order. -/
theorem test_witness_DrawFlagIsLastCollision_lit :
    let s := (withMem base 0x300 0x300 [0xC0]).setCell 0 1 true
    faultOf (.drw 0 1 1) s = none ∧ (∃ t, exec (.drw 0 1 1) s = .next t) ∧ s.spriteLit 0 1 1 0 1 = true ∧
      ∀ dy dx, s.spriteLit 0 1 1 dy dx = true → ¬ scanBefore (0, 1) (dy, dx) := by
  refine ⟨by decide, exec_next _ _, by decide, fun dy dx h => ?_⟩
  have hc : ((withMem base 0x300 0x300 [0xC0]).setCell 0 1 true).spriteCells 0 1 1 = [(0, 0), (0, 1)] := by decide
  have hm := (State.mem_spriteCells _ 0 1 1 dy dx).mpr h
  rw [hc] at hm
  simp only [List.mem_cons, Prod.mk.injEq, List.not_mem_nil, or_false] at hm
  rcases hm with ⟨rfl, rfl⟩ | ⟨rfl, rfl⟩ <;> simp [scanBefore]

/-- T-D4: a sprite without a lit bit. -/
theorem test_witness_DrawFlagIsLastCollision_unlit :
    let s := withMem (regs [(0xF, 1)]) 0x300 0x300 [0x00]
    faultOf (.drw 0 1 1) s = none ∧ (∃ t, exec (.drw 0 1 1) s = .next t) ∧ ∀ cy cx, s.spriteLit 0 1 1 cy cx = false := by
  refine ⟨by decide, exec_next _ _, fun cy cx => ?_⟩
  have hc : (withMem (regs [(0xF, 1)]) 0x300 0x300 [0x00]).spriteCells 0 1 1 = [] := by decide
  have hm := State.mem_spriteCells (withMem (regs [(0xF, 1)]) 0x300 0x300 [0x00]) 0 1 1 cy cx
  rw [hc] at hm
  simpa using hm

/-- T-D5: two draws of the same sprite; the first meets no lit cell. -/
theorem test_witness_DrawTwiceRestoresScreen :
    let s := withMem (regs [(0, 10), (1, 10)]) 0x300 0x300 [0xC0, 0x40]
    ∃ t u, exec (.drw 0 1 2) s = .next t ∧ t.readV 0 = s.readV 0 ∧ t.readV 1 = s.readV 1 ∧ exec (.drw 0 1 2) t = .next u ∧
      faultOf (.drw 0 1 2) s = none ∧ (∃ cy cx, s.spriteLit 0 1 2 cy cx = true) ∧
      ∀ cy cx, s.spriteLit 0 1 2 cy cx = true → s.cell cy cx = false := by
  intro s
  obtain ⟨u, hu⟩ := exec_next (.drw 0 1 2) (s.drawCells (s.spriteCells 0 1 2)).advance
  refine ⟨(s.drawCells (s.spriteCells 0 1 2)).advance, u, rfl, by decide, by decide, hu, by decide, ⟨10, 10, by decide⟩, ?_⟩
  intro cy cx _
  simp [s, withMem, regs, base, State.reset, State.cell, State.setIdx, State.setMem, State.writeV]

theorem test_witness_NothingElseDraws :
    (Instr.ldSt 2 ≠ .cls ∧ (∀ x y n, Instr.ldSt 2 ≠ .drw x y n) ∧ ∃ t, exec (.ldSt 2) base = .next t) ∧
    (∃ t, perform .tick base = .next t) ∧ ∃ t, perform (.load 0x300 [1]) base = .next t :=
  ⟨⟨by decide, fun _ _ _ h => Instr.noConfusion h, exec_next _ _⟩, perform_next _ _, perform_next _ _⟩

/-! ### Witnesses: keypad, faults, the whole machine -/

theorem test_witness_WaitForKey : (base.latch none 0).key = none ∧ (base.latch (some 0xF) 0).key = some 0xF := by decide

/-- Each row of the fault table at its first faulting value. -/
theorem test_witness_FaultsArePreciseAndTabled :
    faultOf .ret base = some .stackUnderflow ∧ faultOf (.call 0x300) (withStack 16) = some .stackOverflow ∧
    faultOf (.ldFont 5) (regs [(5, 16)]) = some .fontDigitRange ∧ faultOf (.ldBcd 0) (base.setIdx 0xFFE) = some .memRange ∧
    faultOf (.stRegs 15) (base.setIdx 0xFF1) = some .memRange ∧ faultOf (.ldRegs 1) (base.setIdx 0xFFF) = some .memRange ∧
    faultOf (.drw 0 1 2) (base.setIdx 0xFFF) = some .memRange := by decide

/-- The same instructions at their last value without a fault; also for the two statements after it that ask for no
fault, whose memory is canonical and whose `pc` is 0x200. -/
theorem test_witness_EveryInstructionChangesOnlyItsOwn :
    base.mem.wf ∧ base.pc.toNat ≤ 0xFFE ∧
    faultOf .ret (withStack 1) = none ∧ faultOf (.call 0x300) (withStack 15) = none ∧
    faultOf (.ldFont 5) (regs [(5, 15)]) = none ∧ faultOf (.ldBcd 0) (base.setIdx 0xFFD) = none ∧
    faultOf (.stRegs 15) (base.setIdx 0xFF0) = none ∧ faultOf (.ldRegs 0) (base.setIdx 0xFFF) = none ∧
    faultOf (.drw 0 1 1) (base.setIdx 0xFFF) = none ∧ faultOf .cls base = none := by decide

/-- The last `pc` that is executed from. -/
theorem test_witness_PcFollowsAdvancementPolicy :
    (base.goto 0xFFE).pc.toNat ≤ 0xFFE ∧ faultOf (.seImm 0 0) (base.goto 0xFFE) = none := by decide

/-- A faulted state whose host plans every operation but a reset, run over all of them. -/
theorem test_witness_FaultedMachineStaysFaulted :
    let s : State := { base with fault := some .memRange, ops := [.step none 0, .tick, .load 0x300 [1]] }
    s.fault = some .memRange ∧ s.noResetPlanned ∧ ∃ t, core.run 3 s = .next t := by
  refine ⟨rfl, by simp [State.noResetPlanned], _, rfl⟩

/-- A state just past the end, run over the same. -/
theorem test_witness_EndedMachineStaysEnded :
    let s : State := { base with pc := 0x0FFF, ops := [.step none 0, .tick, .load 0x300 [1]] }
    s.runState = .ended ∧ s.noResetPlanned ∧ ∃ t, core.run 3 s = .next t := by
  refine ⟨by decide, by simp [State.noResetPlanned], _, rfl⟩

theorem test_witness_OtherInstructionsIgnoreKey :
    (∀ x, Instr.drw 0 1 2 ≠ .skp x) ∧ (∀ x, Instr.drw 0 1 2 ≠ .sknp x) ∧ (∀ x, Instr.drw 0 1 2 ≠ .ldKey x) ∧
    ∃ t, exec (.drw 0 1 2) base = .next t :=
  ⟨fun _ h => Instr.noConfusion h, fun _ h => Instr.noConfusion h, fun _ h => Instr.noConfusion h, exec_next _ _⟩

/-- Also for SoundTimerIsNeverRead, whose only hypothesis is the last conjunct. -/
theorem test_witness_OtherInstructionsIgnoreRandom :
    (∀ x nn, Instr.ldSt 2 ≠ .rnd x nn) ∧ ∃ t, exec (.ldSt 2) base = .next t :=
  ⟨fun _ _ h => Instr.noConfusion h, exec_next _ _⟩

theorem test_witness_ResetLeavesZeroedState :
    State.reset = State.reset ∧ ∃ t, perform .reset ((withStack 3).raise .memRange) = .next t := ⟨rfl, perform_next _ _⟩

theorem test_witness_NoFontUntilLoadedAndParametersFixed :
    (∀ a, base.memByte a = 0) ∧ (∀ b bs, ({ base with ops := [.tick] } : State).nextOp.1 ≠ .load b bs) ∧
    (∃ t, step { base with ops := [.tick] } = .next t) ∧ ∃ t, exec (.call 0x300) base = .next t :=
  ⟨fun _ => rfl, fun _ _ h => HostOp.noConfusion h, perform_next _ _, exec_next _ _⟩

/-- The longest program there is room for, and one byte more. -/
theorem test_witness_BootLoadsFontAndProgram :
    ({ base with ops := bootOps base.params [0x60, 0x0C] ++ [.tick] } : State).ops =
      bootOps base.params [0x60, 0x0C] ++ [.tick] ∧
    (List.replicate 3584 (0x60 : Byte)).length ≤ 3584 ∧ 3584 < (List.replicate 3585 (0x60 : Byte)).length :=
  ⟨rfl, Nat.le_of_eq List.length_replicate, Nat.lt_of_lt_of_eq (Nat.lt_succ_self 3584) List.length_replicate.symm⟩

/-- The invariant holds of a state with memory, a full stack, the highest `pc` there is and a reply, and steps go on. -/
theorem test_witness_StepKeepsInvariant :
    let s : State := { withStack 16 with
      mem := [(0x300, 1), (0xFFF, 2)], pc := 0x10FE, reply := .status .endOfMemory, ops := [.load 0xFFE [1, 2], .reset] }
    s.Inv ∧ ∃ t, step s = .next t :=
  ⟨⟨by decide, by decide, fun w hw => by rw [List.eq_of_mem_replicate hw]; decide, by decide, by decide, by decide⟩,
    perform_next _ _⟩

/-- And of a faulted state whose `Step` has just answered so; a memory that is not canonical has it not. -/
theorem test_inv_faulted :
    ({ base with fault := some .stackUnderflow, reply := .status (.fatal .stackUnderflow) } : State).Inv ∧
    ¬ ({ base with mem := [(0x300, 0)] } : State).Inv :=
  ⟨⟨by decide, by decide, fun _ h => absurd h List.not_mem_nil, by decide, by decide, by decide⟩,
    fun h => absurd h.1 (by decide)⟩

end Sys2Proof.Tests
end

section
/-! The decode procedure (30_encoding.md rule R75), case by case: the second level of the dispatch as comparisons, then
the words of each format with their fields.
-/

namespace Sys2Proof

/-! ### The second level of the dispatch -/

/-- Two words of format A that differ in `NNN` are different words. -/
theorem formatA_ne_of_nnn_ne {o : Nibble} {a b : Addr} (h : a ≠ b) : o ++ a ≠ o ++ b :=
  fun e => h (by simpa only [nnnField_formatA] using congrArg nnnField e)

/-- Family 0 away from its two patterns: since `op` is fixed, comparing `NNN` compares the whole word (R76). -/
theorem decodeFamily0_of_ne {nnn : Addr} (hcls : nnn ≠ 0x0E0) (hret : nnn ≠ 0x0EE) :
    decodeFamily0 (0x0#4 ++ nnn) = .nop (0x0#4 ++ nnn) := by
  have hcls' : 0x0#4 ++ nnn ≠ 0x00E0#16 := formatA_ne_of_nnn_ne hcls
  have hret' : 0x0#4 ++ nnn ≠ 0x00EE#16 := formatA_ne_of_nnn_ne hret
  rw [decodeFamily0, if_neg hcls', if_neg hret']

/-- Family 8 compares the low nibble. -/
theorem decodeFamily8_eq (w : Word) : decodeFamily8 w =
    (if nField w = 0x0 then .ldReg (xField w) (yField w) else if nField w = 0x1 then .orReg (xField w) (yField w)
      else if nField w = 0x2 then .andReg (xField w) (yField w) else if nField w = 0x3 then .xorReg (xField w) (yField w)
      else if nField w = 0x4 then .addReg (xField w) (yField w) else if nField w = 0x5 then .sub (xField w) (yField w)
      else if nField w = 0x6 then .shr (xField w) (yField w) else if nField w = 0x7 then .subn (xField w) (yField w)
      else if nField w = 0xE then .shl (xField w) (yField w) else .nop w) := by
  unfold decodeFamily8
  split <;> simp_all

/-- Family 0xE compares the low byte. -/
theorem decodeFamilyE_eq (w : Word) : decodeFamilyE w =
    (if nnField w = 0x9E then .skp (xField w) else if nnField w = 0xA1 then .sknp (xField w) else .nop w) := by
  unfold decodeFamilyE
  split <;> simp_all

/-- Family 0xF compares the low byte. -/
theorem decodeFamilyF_eq (w : Word) : decodeFamilyF w =
    (if nnField w = 0x07 then .ldFromDt (xField w) else if nnField w = 0x0A then .ldKey (xField w)
      else if nnField w = 0x15 then .ldDt (xField w) else if nnField w = 0x18 then .ldSt (xField w)
      else if nnField w = 0x1E then .addI (xField w) else if nnField w = 0x29 then .ldFont (xField w)
      else if nnField w = 0x33 then .ldBcd (xField w) else if nnField w = 0x55 then .stRegs (xField w)
      else if nnField w = 0x65 then .ldRegs (xField w) else .nop w) := by
  unfold decodeFamilyF
  split <;> simp_all

/-! ### The first level, by the format of the word -/

/-- Family 0 without its two patterns. -/
theorem decodeWord_family0_of_ne {nnn : Addr} (hcls : nnn ≠ 0x0E0) (hret : nnn ≠ 0x0EE) :
    decodeWord (0x0#4 ++ nnn) = .nop (0x0#4 ++ nnn) := by
  simp only [decodeWord, opField_formatA, decodeFamily0_of_ne hcls hret]

/-- The families of format A. -/
@[simp] theorem decodeWord_formatA (nnn : Addr) :
    decodeWord (0x1#4 ++ nnn) = .jp nnn ∧ decodeWord (0x2#4 ++ nnn) = .call nnn ∧
    decodeWord (0xA#4 ++ nnn) = .ldI nnn ∧ decodeWord (0xB#4 ++ nnn) = .jpOff (nnn.extractLsb' 8 4) nnn := by
  simp only [decodeWord, opField_formatA, nnnField_formatA, xField_formatA, and_self]

/-- The families of format XI. -/
@[simp] theorem decodeWord_formatXI (x : Nibble) (nn : Byte) :
    decodeWord (0x3#4 ++ x ++ nn) = .seImm x nn ∧ decodeWord (0x4#4 ++ x ++ nn) = .sneImm x nn ∧
    decodeWord (0x6#4 ++ x ++ nn) = .ldImm x nn ∧ decodeWord (0x7#4 ++ x ++ nn) = .addImm x nn ∧
    decodeWord (0xC#4 ++ x ++ nn) = .rnd x nn := by
  simp only [decodeWord, opField_formatXI, xField_formatXI, nnField_formatXI, and_self]

/-- The families of format XY that have one pattern; 5 and 9 compare the low nibble with 0 (R76). -/
@[simp] theorem decodeWord_formatXY (x y n : Nibble) :
    decodeWord (0x5#4 ++ x ++ y ++ n) = (if n = 0 then .seReg x y else .nop (0x5#4 ++ x ++ y ++ n)) ∧
    decodeWord (0x9#4 ++ x ++ y ++ n) = (if n = 0 then .sneReg x y else .nop (0x9#4 ++ x ++ y ++ n)) ∧
    decodeWord (0xD#4 ++ x ++ y ++ n) = .drw x y n := by
  simp only [decodeWord, opField_formatXY, xField_formatXY, yField_formatXY, nField_formatXY,
    BitVec.ofNat_eq_ofNat, and_self]

/-- Family 8. -/
@[simp] theorem decodeWord_family8 (x y n : Nibble) :
    decodeWord (0x8#4 ++ x ++ y ++ n) =
      (if n = 0x0 then .ldReg x y else if n = 0x1 then .orReg x y else if n = 0x2 then .andReg x y
        else if n = 0x3 then .xorReg x y else if n = 0x4 then .addReg x y else if n = 0x5 then .sub x y
        else if n = 0x6 then .shr x y else if n = 0x7 then .subn x y else if n = 0xE then .shl x y
        else .nop (0x8#4 ++ x ++ y ++ n)) := by
  simp only [decodeWord, opField_formatXY, decodeFamily8_eq, xField_formatXY, yField_formatXY, nField_formatXY]

/-- Family 0xE. -/
@[simp] theorem decodeWord_familyE (x : Nibble) (kk : Byte) :
    decodeWord (0xE#4 ++ x ++ kk) =
      (if kk = 0x9E then .skp x else if kk = 0xA1 then .sknp x else .nop (0xE#4 ++ x ++ kk)) := by
  simp only [decodeWord, opField_formatXI, decodeFamilyE_eq, xField_formatXI, nnField_formatXI]

/-- Family 0xF: the last arm of the dispatch. -/
@[simp] theorem decodeWord_familyF (x : Nibble) (kk : Byte) :
    decodeWord (0xF#4 ++ x ++ kk) =
      (if kk = 0x07 then .ldFromDt x else if kk = 0x0A then .ldKey x else if kk = 0x15 then .ldDt x
        else if kk = 0x18 then .ldSt x else if kk = 0x1E then .addI x else if kk = 0x29 then .ldFont x
        else if kk = 0x33 then .ldBcd x else if kk = 0x55 then .stRegs x else if kk = 0x65 then .ldRegs x
        else .nop (0xF#4 ++ x ++ kk)) := by
  rw [decodeWord, opField_formatXI]
  change decodeFamilyF _ = _
  rw [decodeFamilyF_eq, xField_formatXI, nnField_formatXI]

/-- Settles O4: the dispatch, one lemma for each format and each family with a second level. -/
theorem dispatchDecodesEveryPattern : Obligations.DispatchDecodesEveryPattern := by
  refine ⟨⟨rfl, rfl, fun _ => decodeWord_family0_of_ne⟩, decodeWord_formatA, decodeWord_formatXI, fun x y n => ?_,
    fun x kk => ⟨decodeWord_familyE x kk, decodeWord_familyF x kk⟩⟩
  obtain ⟨h5, h9, hD⟩ := decodeWord_formatXY x y n
  exact ⟨h5, h9, hD, decodeWord_family8 x y n⟩

end Sys2Proof
end

section
/-! An unrecognised word is a `NOP` (30_encoding.md rule R77, 40_step_cycle.md rule R96): the instruction that a word
decodes to has that word back as its own, and only a `nop` has a word that no row of the opcode map covers.
-/

namespace Sys2Proof

/-! ### The decoded instruction has the word it was decoded from -/

/-- A word from its family and the rest of format A. -/
theorem formatA_of_op {w : Word} {o : Nibble} (ho : opField w = o) : o ++ nnnField w = w := by
  rw [← ho, word_formatA]

/-- A word from its family and the rest of format XI. -/
theorem formatXI_of_op {w : Word} {o : Nibble} (ho : opField w = o) : o ++ xField w ++ nnField w = w := by
  rw [← ho, word_formatXI]

/-- A word from its family, its low byte and the rest of format XS. -/
theorem formatXI_of_op_nn {w : Word} {o : Nibble} {kk : Byte} (ho : opField w = o) (hk : nnField w = kk) :
    o ++ xField w ++ kk = w := by
  rw [← hk, formatXI_of_op ho]

/-- A word from its family, its low nibble and the rest of format XY. -/
theorem formatXY_of_op_n {w : Word} {o n : Nibble} (ho : opField w = o) (hn : nField w = n) :
    o ++ xField w ++ yField w ++ n = w := by
  rw [← ho, ← hn, word_formatXY]

/-- Family 0. -/
theorem encodeWord_decodeFamily0 (w : Word) : encodeWord (decodeFamily0 w) = w := by
  unfold decodeFamily0
  split_ifs with hcls hret
  · exact hcls.symm
  · exact hret.symm
  · rfl

/-- Family 8. -/
theorem encodeWord_decodeFamily8 {w : Word} (ho : opField w = 0x8#4) : encodeWord (decodeFamily8 w) = w := by
  unfold decodeFamily8
  dsimp only
  split
  case h_10 => rfl
  all_goals exact formatXY_of_op_n ho ‹_›

/-- Family 0xE. -/
theorem encodeWord_decodeFamilyE {w : Word} (ho : opField w = 0xE#4) : encodeWord (decodeFamilyE w) = w := by
  unfold decodeFamilyE
  split
  case h_3 => rfl
  all_goals exact formatXI_of_op_nn ho ‹_›

/-- Family 0xF. -/
theorem encodeWord_decodeFamilyF {w : Word} (ho : opField w = 0xF#4) : encodeWord (decodeFamilyF w) = w := by
  unfold decodeFamilyF
  dsimp only
  split
  case h_10 => rfl
  all_goals exact formatXI_of_op_nn ho ‹_›

/-- Families 5 and 9 decode to their one pattern or to the `NOP` of the word (R76). -/
theorem encodeWord_ite_nop {w : Word} {c : Prop} [Decidable c] {i : Instr} (h : c → encodeWord i = w) :
    encodeWord (if c then i else .nop w) = w := by
  split_ifs with hc
  · exact h hc
  · rfl

/-- Every word is the word of the instruction it decodes to: by the first level of the dispatch (R75). -/
@[simp] theorem encodeWord_decodeWord (w : Word) : encodeWord (decodeWord w) = w := by
  unfold decodeWord
  split
  case h_1 => exact encodeWord_decodeFamily0 w
  case h_2 ho | h_3 ho | h_11 ho | h_12 ho => exact formatA_of_op ho
  case h_4 ho | h_5 ho | h_7 ho | h_8 ho | h_13 ho => exact formatXI_of_op ho
  case h_6 ho | h_10 ho => exact encodeWord_ite_nop (formatXY_of_op_n ho)
  case h_9 ho => exact encodeWord_decodeFamily8 ho
  case h_14 ho => exact formatXY_of_op_n ho rfl
  case h_15 ho => exact encodeWord_decodeFamilyE ho
  case h_16 h0 h1 h2 h3 h4 h5 h6 h7 h8 h9 hA hB hC hD hE =>
    exact encodeWord_decodeFamilyF (nibble_eq_fifteen h0 h1 h2 h3 h4 h5 h6 h7 h8 h9 hA hB hC hD hE)

/-! ### Only a `nop` has an unrecognised word -/

/-- The statement of Laws/PerInstr.lean of every instruction: one lemma for each constructor. -/
theorem matchesRow : ∀ i : Instr, Laws.MatchesRow.Statement i
  | .cls => Laws.MatchesRow.cls
  | .ret => Laws.MatchesRow.ret
  | .jp nnn => Laws.MatchesRow.jp nnn
  | .call nnn => Laws.MatchesRow.call nnn
  | .seImm x nn => Laws.MatchesRow.seImm x nn
  | .sneImm x nn => Laws.MatchesRow.sneImm x nn
  | .seReg x y => Laws.MatchesRow.seReg x y
  | .ldImm x nn => Laws.MatchesRow.ldImm x nn
  | .addImm x nn => Laws.MatchesRow.addImm x nn
  | .ldReg x y => Laws.MatchesRow.ldReg x y
  | .orReg x y => Laws.MatchesRow.orReg x y
  | .andReg x y => Laws.MatchesRow.andReg x y
  | .xorReg x y => Laws.MatchesRow.xorReg x y
  | .addReg x y => Laws.MatchesRow.addReg x y
  | .sub x y => Laws.MatchesRow.sub x y
  | .shr x y => Laws.MatchesRow.shr x y
  | .subn x y => Laws.MatchesRow.subn x y
  | .shl x y => Laws.MatchesRow.shl x y
  | .sneReg x y => Laws.MatchesRow.sneReg x y
  | .ldI nnn => Laws.MatchesRow.ldI nnn
  | .jpOff x nnn => Laws.MatchesRow.jpOff x nnn
  | .rnd x nn => Laws.MatchesRow.rnd x nn
  | .drw x y n => Laws.MatchesRow.drw x y n
  | .skp x => Laws.MatchesRow.skp x
  | .sknp x => Laws.MatchesRow.sknp x
  | .ldFromDt x => Laws.MatchesRow.ldFromDt x
  | .ldKey x => Laws.MatchesRow.ldKey x
  | .ldDt x => Laws.MatchesRow.ldDt x
  | .ldSt x => Laws.MatchesRow.ldSt x
  | .addI x => Laws.MatchesRow.addI x
  | .ldFont x => Laws.MatchesRow.ldFont x
  | .ldBcd x => Laws.MatchesRow.ldBcd x
  | .stRegs x => Laws.MatchesRow.stRegs x
  | .ldRegs x => Laws.MatchesRow.ldRegs x
  | .nop w => Laws.MatchesRow.nop w

/-- A word that some row covers is recognised (R77). -/
theorem not_unrecognised_of_covers {r : OpcodeRow} {w : Word} (hr : r ∈ opcodeRows) (hc : r.covers w = true) :
    ¬ unrecognised w = true := fun hu => by
  simpa [hc] using List.all_eq_true.mp hu r hr

/-- The row `NOP` is that of `nop` alone. -/
theorem eq_nop_of_mnemonic {i : Instr} (h : i.mnemonic = "NOP") : i = .nop (encodeWord i) := by
  cases i with
  | nop w => rfl
  | _ => simp [Instr.mnemonic] at h

/-- A well-formed instruction other than a `nop` has a word that its own row covers (R74), so it is recognised. -/
theorem eq_nop_of_wf_of_unrecognised {i : Instr} (hwf : i.wf = true) (hu : unrecognised (encodeWord i) = true) :
    i = .nop (encodeWord i) := by
  rcases matchesRow i hwf with ⟨r, hr, -, hc⟩ | ⟨hn, -⟩
  · exact absurd hu (not_unrecognised_of_covers hr hc)
  · exact eq_nop_of_mnemonic hn

/-- The register field of a `jpOff` is not in its word, so the well-formed `jpOff` of the same address stands for the
ill-formed ones. -/
theorem wf_of_unrecognised_encodeWord {i : Instr} (hu : unrecognised (encodeWord i) = true) : i.wf = true := by
  cases i with
  | nop w => exact hu
  | jpOff x nnn =>
    have hwf : (Instr.jpOff (nnn.extractLsb' 8 4) nnn).wf = true := beq_self_eq_true _
    exact Instr.noConfusion (eq_nop_of_wf_of_unrecognised hwf hu)
  | _ => rfl

/-- R77: the catch-all of the decoder takes every word that no row covers. -/
theorem decodeWord_of_unrecognised {w : Word} (hu : unrecognised w = true) : decodeWord w = .nop w := by
  have hu' : unrecognised (encodeWord (decodeWord w)) = true := by rwa [encodeWord_decodeWord]
  have hnop := eq_nop_of_wf_of_unrecognised (wf_of_unrecognised_encodeWord hu') hu'
  rwa [encodeWord_decodeWord] at hnop

/-! ### What a `NOP` does -/

/-- R96: the next state is the old one with `pc` advanced. -/
@[simp] theorem Machine.exec_nop (w : Word) (s : Machine.State) : Machine.exec (.nop w) s = .next s.advance := rfl

/-- Settles O10: no row's instruction has an unrecognised word, and a `nop` advances. -/
theorem nopOnlyAdvances : Obligations.NopOnlyAdvances := fun w s hu =>
  ⟨decodeWord_of_unrecognised hu, Machine.exec_nop w s⟩

end Sys2Proof
end

section
/-! Control transfer (41_flow.md): what `RET` and `JP` do, and the frame of a jump: an update of `pc` keeps every other
place.
-/

namespace Sys2Proof.Machine

/-! ### The frame of a jump -/

/-- A state differs from itself nowhere: the start of a frame that follows the updates of an instruction. -/
theorem ChangesOnly.refl (P : Loc → Prop) (s : State) : ChangesOnly P s s := fun l _ => by
  cases l with
  | host => exact ⟨rfl, rfl, rfl, rfl, rfl, rfl⟩
  | _ => rfl

/-- Writing `pc` stays within every frame that allows `pc`. -/
theorem ChangesOnly.goto {P : Loc → Prop} {s t : State} (h : ChangesOnly P s t) (hpc : P .pc) (w : Word) :
    ChangesOnly P s (t.goto w) := fun l hl => by
  cases l with
  | pc => exact absurd hpc hl
  | _ => exact h _ hl

/-! ### `RET` -/

/-- R100 with an entry on the stack. -/
theorem exec_ret_of_cons {s : State} {w : Word} {rest : List Word} (h : s.stack = w :: rest) :
    exec .ret s = .next ((s.setStack rest).goto w) := by
  change execRet s = _
  rw [execRet, h]

/-- R100 on an empty stack: StackUnderflow. -/
theorem exec_ret_of_nil {s : State} (h : s.stack = []) : exec .ret s = takeFault .stackUnderflow s := by
  change execRet s = _
  rw [execRet, h]

/-! ### `JP` -/

/-- R101. -/
@[simp] theorem exec_jp (nnn : Addr) (s : State) : exec (.jp nnn) s = .next (s.goto (zextAddr nnn)) := rfl

end Sys2Proof.Machine

namespace Sys2Proof

open Machine

/-- Settles O13: `RET` by its two cases, an entry on the stack or none. -/
theorem returnPopsStack : Obligations.ReturnPopsStack :=
  ⟨rfl, fun _ => ⟨fun _ _ hcons => exec_ret_of_cons hcons, fun hnil => by rw [exec_ret_of_nil hnil, takeFault_eq]⟩⟩

/-- Settles O14: `JP` is one write of `pc`, and zero extension keeps the number. -/
theorem jumpSetsPc : Obligations.JumpSetsPc := fun nnn s => by
  obtain ⟨hjp, -⟩ := decodeWord_formatA nnn
  exact ⟨hjp, s.goto (zextAddr nnn), exec_jp nnn s, zextAddr_toNat nnn, (ChangesOnly.refl (· = .pc) s).goto rfl _⟩

end Sys2Proof
end

section
/-! Skips on register values (42_skip.md): the state after a skip, by its test, and the four comparing instructions.
-/

namespace Sys2Proof.Machine

/-! ### The state after a skip -/

/-- A skip whose test holds passes over the next instruction. -/
theorem State.skipIf_true (s : State) : s.skipIf true = { s with pc := s.pc + 4 } := rfl

/-- A skip whose test fails advances like any other instruction. -/
theorem State.skipIf_false (s : State) : s.skipIf false = { s with pc := s.pc + 2 } := rfl

/-- On equal bytes the skip on equality is taken and the skip on inequality is not. -/
theorem next_skipIf_of_eq {a b : Byte} (h : a = b) (s : State) :
    (.next (s.skipIf (a == b)) : Result) = .next { s with pc := s.pc + 4 } ∧
    (.next (s.skipIf (a != b)) : Result) = .next { s with pc := s.pc + 2 } := by
  rw [beq_iff_eq.mpr h, bne_eq_false_iff_eq.mpr h, s.skipIf_true, s.skipIf_false]
  exact ⟨rfl, rfl⟩

/-- On different bytes it is the other way round. -/
theorem next_skipIf_of_ne {a b : Byte} (h : a ≠ b) (s : State) :
    (.next (s.skipIf (a == b)) : Result) = .next { s with pc := s.pc + 2 } ∧
    (.next (s.skipIf (a != b)) : Result) = .next { s with pc := s.pc + 4 } := by
  rw [beq_false_of_ne h, bne_iff_ne.mpr h, s.skipIf_true, s.skipIf_false]
  exact ⟨rfl, rfl⟩

/-! ### The four comparing instructions -/

/-- R110. -/
@[simp] theorem exec_seImm (x : Nibble) (nn : Byte) (s : State) :
    exec (.seImm x nn) s = .next (s.skipIf (s.readV x == nn)) := rfl

/-- R111. -/
@[simp] theorem exec_sneImm (x : Nibble) (nn : Byte) (s : State) :
    exec (.sneImm x nn) s = .next (s.skipIf (s.readV x != nn)) := rfl

/-- R112. -/
@[simp] theorem exec_seReg (x y : Nibble) (s : State) :
    exec (.seReg x y) s = .next (s.skipIf (s.readV x == s.readV y)) := rfl

/-- R113. -/
@[simp] theorem exec_sneReg (x y : Nibble) (s : State) :
    exec (.sneReg x y) s = .next (s.skipIf (s.readV x != s.readV y)) := rfl

end Sys2Proof.Machine

namespace Sys2Proof

open Machine

/-- Settles O18: both instructions are one skip, split by whether `V[X]` is `NN`. -/
theorem skipOnImmediate : Obligations.SkipOnImmediate := fun x nn s => by
  obtain ⟨hse, hsne, -⟩ := decodeWord_formatXI x nn
  refine ⟨hse, hsne, fun heq => ?_, fun hne => ?_⟩ <;> rw [exec_seImm, exec_sneImm]
  · exact next_skipIf_of_eq heq s
  · exact next_skipIf_of_ne hne s

/-- Families 5 and 9 with low nibble 0 (R112, R113). -/
theorem decodeWord_skipReg (x y : Nibble) :
    decodeWord (0x5#4 ++ x ++ y ++ 0x0#4) = .seReg x y ∧ decodeWord (0x9#4 ++ x ++ y ++ 0x0#4) = .sneReg x y := by
  obtain ⟨h5, h9, -⟩ := decodeWord_formatXY x y 0x0#4
  exact ⟨h5.trans (if_pos rfl), h9.trans (if_pos rfl)⟩

/-- Families 5 and 9 with another low nibble (R76). -/
theorem decodeWord_skipReg_of_ne (x y : Nibble) {n : Nibble} (hn : n ≠ 0) :
    decodeWord (0x5#4 ++ x ++ y ++ n) = .nop (0x5#4 ++ x ++ y ++ n) ∧
    decodeWord (0x9#4 ++ x ++ y ++ n) = .nop (0x9#4 ++ x ++ y ++ n) := by
  obtain ⟨h5, h9, -⟩ := decodeWord_formatXY x y n
  exact ⟨h5.trans (if_neg hn), h9.trans (if_neg hn)⟩

/-- Settles O19: the low nibble selects the instruction or a `NOP`; the instruction is one skip, split by whether
`V[X]` is `V[Y]`. -/
theorem skipOnRegisters : Obligations.SkipOnRegisters := fun x y s => by
  obtain ⟨hse, hsne⟩ := decodeWord_skipReg x y
  refine ⟨hse, hsne, fun n hn => decodeWord_skipReg_of_ne x y hn, fun heq => ?_, fun hne => ?_⟩ <;>
    rw [exec_seReg, exec_sneReg]
  · exact next_skipIf_of_eq heq s
  · exact next_skipIf_of_ne hne s

end Sys2Proof
end

section
/-! Register load, immediate add and register copy (43_alu.md): each is one write of `V[X]` and an advance, so the frame of
a register write is proved once and what such an instruction does is one lemma.
-/

namespace Sys2Proof.Machine

/-! ### The frame of a register write and an advance -/

/-- Writing `V[x]` stays within every frame that allows `V[x]`. -/
theorem ChangesOnly.writeV {P : Loc → Prop} {s t : State} {x : Nibble} (h : ChangesOnly P s t) (hx : P (.reg x))
    (b : Byte) : ChangesOnly P s (t.writeV x b) := fun l hl => by
  cases l with
  | reg r =>
    have hne : x ≠ r := fun e => hl (e ▸ hx)
    exact (t.readV_writeV x r b).trans ((if_neg hne).trans (h _ hl))
  | _ => exact h _ hl

/-- Advancing stays within every frame that allows `pc`. -/
theorem ChangesOnly.advance {P : Loc → Prop} {s t : State} (h : ChangesOnly P s t) (hpc : P .pc) :
    ChangesOnly P s t.advance := h.goto hpc _

/-- An instruction that is one write of `V[x]` and an advance: its result, its next `pc`, its frame. -/
theorem exec_of_writeV_advance {i : Instr} {s : State} {x : Nibble} {b : Byte}
    (h : exec i s = .next (s.writeV x b).advance) :
    ∃ t, exec i s = .next t ∧ t.readV x = b ∧ t.pc = s.pc + 2 ∧
      ChangesOnly (fun l => l = .pc ∨ l = .reg x) s t := by
  have hframe : ChangesOnly (fun l => l = .pc ∨ l = .reg x) s (s.writeV x b).advance :=
    ((ChangesOnly.refl _ s).writeV (.inr rfl) b).advance (.inl rfl)
  exact ⟨_, h, s.readV_writeV_same x b, rfl, hframe⟩

/-! ### The three instructions -/

/-- R122. -/
@[simp] theorem exec_ldImm (x : Nibble) (nn : Byte) (s : State) :
    exec (.ldImm x nn) s = .next (s.writeV x nn).advance := rfl

/-- R123. -/
@[simp] theorem exec_addImm (x : Nibble) (nn : Byte) (s : State) :
    exec (.addImm x nn) s = .next (s.writeV x (s.readV x + nn)).advance := rfl

/-- R124. -/
@[simp] theorem exec_ldReg (x y : Nibble) (s : State) :
    exec (.ldReg x y) s = .next (s.writeV x (s.readV y)).advance := rfl

end Sys2Proof.Machine

namespace Sys2Proof

open Machine

/-- Settles O21: `NN` is the byte written. -/
theorem loadImmediate : Obligations.LoadImmediate := fun x nn s => by
  obtain ⟨-, -, hld, -⟩ := decodeWord_formatXI x nn
  exact ⟨hld, exec_of_writeV_advance (exec_ldImm x nn s)⟩

/-- Settles O22: the byte written is the 8-bit sum, which is the sum of the numbers modulo 256. -/
theorem addImmediateWrapsWithoutFlag : Obligations.AddImmediateWrapsWithoutFlag := fun x nn s => by
  obtain ⟨-, -, -, hadd, -⟩ := decodeWord_formatXI x nn
  obtain ⟨t, hexec, hsum, hpc, hframe⟩ := exec_of_writeV_advance (exec_addImm x nn s)
  have hmod : (t.readV x).toNat = ((s.readV x).toNat + nn.toNat) % 256 := by rw [hsum, BitVec.toNat_add]
  exact ⟨hadd, t, hexec, hmod, hpc, hframe⟩

/-- Settles O23: `V[Y]` is the byte written; low nibble 0 of family 8 selects the copy. -/
theorem copyRegister : Obligations.CopyRegister := fun x y s =>
  ⟨(decodeWord_family8 x y 0x0#4).trans (if_pos rfl), exec_of_writeV_advance (exec_ldReg x y s)⟩

end Sys2Proof
end

section
/-! Loading the index register (44_index_memory.md): one write of `I` and an advance, so the frame of a write of `I` is proved
once, and so is what an instruction of this shape does.
-/

namespace Sys2Proof.Machine

/-- Writing `I` stays within every frame that allows `I`. -/
theorem ChangesOnly.setIdx {P : Loc → Prop} {s t : State} (h : ChangesOnly P s t) (hidx : P .idx) (w : Word) :
    ChangesOnly P s (t.setIdx w) := fun l hl => by
  cases l with
  | idx => exact absurd hidx hl
  | _ => exact h _ hl

/-- An instruction that is one write of `I` and an advance: its result, its next `pc`, its frame. -/
theorem exec_of_setIdx_advance {i : Instr} {s : State} {w : Word} (h : exec i s = .next (s.setIdx w).advance) :
    ∃ t, exec i s = .next t ∧ t.idx = w ∧ t.pc = s.pc + 2 ∧ ChangesOnly (fun l => l = .pc ∨ l = .idx) s t := by
  have hframe : ChangesOnly (fun l => l = .pc ∨ l = .idx) s (s.setIdx w).advance :=
    ((ChangesOnly.refl _ s).setIdx (.inr rfl) w).advance (.inl rfl)
  exact ⟨_, h, s.setIdx_idx w, rfl, hframe⟩

/-- R140. -/
@[simp] theorem exec_ldI (nnn : Addr) (s : State) : exec (.ldI nnn) s = .next (s.setIdx (zextAddr nnn)).advance := rfl

end Sys2Proof.Machine

namespace Sys2Proof

open Machine

/-- Settles O29: the word written to `I` is the zero-extended `NNN`, which is the same number. -/
theorem loadIndex : Obligations.LoadIndex := fun nnn s => by
  obtain ⟨-, -, hld, -⟩ := decodeWord_formatA nnn
  obtain ⟨t, hexec, hidx, hpc, hframe⟩ := exec_of_setIdx_advance (exec_ldI nnn s)
  have hnum : t.idx.toNat = nnn.toNat := by rw [hidx, zextAddr_toNat]
  exact ⟨hld, t, hexec, hnum, hpc, hframe⟩

end Sys2Proof
end

section
/-! The framebuffer's frame (45_display.md rule R154): what keeps every cell, by the shape of an answer (a next state, a
fault taken, a choice of the two), then one case for each instruction.
-/

namespace Sys2Proof.Machine

/-! ### Answers that keep the screen -/

/-- Whatever next state `r` answers, its framebuffer is that of `s`. -/
def KeepsScreen (s : State) (r : Result) : Prop := ∀ t, r = .next t → ∀ y x, t.cell y x = s.cell y x

/-- A next state with the cells of `s`. -/
theorem KeepsScreen.next {s u : State} (h : ∀ y x, u.cell y x = s.cell y x) : KeepsScreen s (.next u) := by
  rintro _ ⟨⟩
  exact h

/-- A fault draws nothing (R176). -/
theorem KeepsScreen.takeFault {s : State} (c : FaultCause) : KeepsScreen s (takeFault c s) := .next (s.raise_cell c)

/-- An instruction with a check keeps the screen if it does so on either side of the check. -/
theorem KeepsScreen.ite {s : State} {c : Prop} [Decidable c] {r r' : Result} (h : KeepsScreen s r)
    (h' : KeepsScreen s r') : KeepsScreen s (if c then r else r') := by
  split
  · exact h
  · exact h'

/-! ### The instructions whose meaning is a match -/

/-- R100 on either stack: a pop and a jump, or a fault. -/
theorem exec_ret_keepsScreen (s : State) : KeepsScreen s (exec .ret s) := by
  cases hstack : s.stack with
  | nil =>
    rw [exec_ret_of_nil hstack]
    exact .takeFault _
  | cons w rest =>
    rw [exec_ret_of_cons hstack]
    exact .next fun _ _ => rfl

/-- R161 without a key: the instruction waits. -/
theorem exec_ldKey_of_none {s : State} (h : s.key = none) (x : Nibble) : exec (.ldKey x) s = .next s := by
  change execLdKey x s = _
  rw [execLdKey, h]

/-- R161 with a key: `V[X]` takes it. -/
theorem exec_ldKey_of_some {s : State} {k : Nibble} (h : s.key = some k) (x : Nibble) :
    exec (.ldKey x) s = .next (s.writeV x (keyByte k)).advance := by
  change execLdKey x s = _
  rw [execLdKey, h]

/-- R161 with or without a key. -/
theorem exec_ldKey_keepsScreen (x : Nibble) (s : State) : KeepsScreen s (exec (.ldKey x) s) := by
  cases hkey : s.key with
  | none =>
    rw [exec_ldKey_of_none hkey]
    exact .next fun _ _ => rfl
  | some k =>
    rw [exec_ldKey_of_some hkey]
    exact .next fun _ _ => rfl

/-! ### Every instruction and operation that does not draw -/

/-- R154: of the instructions, `CLS` and `DRW` alone are left out. The others without a case of their own make no check:
their next state is a run of updates that each keep the framebuffer. -/
theorem exec_keepsScreen {i : Instr} (s : State) (hcls : i ≠ .cls) (hdrw : ∀ x y n, i ≠ .drw x y n) :
    KeepsScreen s (exec i s) := by
  cases i with
  | cls => exact absurd rfl hcls
  | drw x y n => exact absurd rfl (hdrw x y n)
  | ret => exact exec_ret_keepsScreen s
  | ldKey x => exact exec_ldKey_keepsScreen x s
  | call nnn => exact .ite (.next fun _ _ => rfl) (.takeFault _)
  | ldFont x => exact .ite (.takeFault _) (.next fun _ _ => rfl)
  | ldBcd x | stRegs x => exact .ite (.next fun _ _ => rfl) (.takeFault _)
  | ldRegs x => exact .ite (.next (s.writeRegs_cell _ _)) (.takeFault _)
  | _ => exact .next fun _ _ => rfl

/-- `Tick` writes the timers (R186). -/
@[simp] theorem State.tick_cell (s : State) (y : Fin 32) (x : Fin 64) : s.tick.cell y x = s.cell y x := rfl

/-- `Load` writes memory or nothing (R65). -/
@[simp] theorem State.load_cell (s : State) (base : Nat) (bytes : List Byte) (y : Fin 32) (x : Fin 64) :
    (s.load base bytes).cell y x = s.cell y x := by
  rcases Nat.lt_or_ge 4096 (base + bytes.length) with h | h
  · rw [s.load_of_not_fits h]
    rfl
  · rw [s.load_of_fits h]
    rfl

end Sys2Proof.Machine

namespace Sys2Proof

open Machine

/-- Settles O40: the instructions other than `CLS` and `DRW`, then `Tick` and `Load`, keep the screen. -/
theorem nothingElseDraws : Obligations.NothingElseDraws := by
  refine ⟨fun i s t hcls hdrw => exec_keepsScreen s hcls hdrw t, fun s => ?_, fun base bytes s => ?_⟩
  · exact KeepsScreen.next s.tick_cell
  · exact KeepsScreen.next (s.load_cell base bytes)

end Sys2Proof
end

section
/-! The timer instructions (46_timer_key.md): reading `DT` is one write of a register, setting a timer one write of that
timer, each followed by an advance; and how long the tone of a sound timer lasts.
-/

namespace Sys2Proof.Machine

/-! ### The frame of a timer write -/

/-- Writing `DT` stays within every frame that allows `DT`. -/
theorem ChangesOnly.setDt {P : Loc → Prop} {s t : State} (h : ChangesOnly P s t) (hdt : P .dt) (b : Byte) :
    ChangesOnly P s (t.setDt b) := fun l hl => by
  cases l with
  | dt => exact absurd hdt hl
  | _ => exact h _ hl

/-- Writing `ST` stays within every frame that allows `ST`. -/
theorem ChangesOnly.setSt {P : Loc → Prop} {s t : State} (h : ChangesOnly P s t) (hst : P .st) (b : Byte) :
    ChangesOnly P s (t.setSt b) := fun l hl => by
  cases l with
  | st => exact absurd hst hl
  | _ => exact h _ hl

/-! ### The three instructions -/

/-- R160. -/
@[simp] theorem exec_ldFromDt (x : Nibble) (s : State) : exec (.ldFromDt x) s = .next (s.writeV x s.dt).advance := rfl

/-- R162. -/
@[simp] theorem exec_ldDt (x : Nibble) (s : State) : exec (.ldDt x) s = .next (s.setDt (s.readV x)).advance := rfl

/-- R163. -/
@[simp] theorem exec_ldSt (x : Nibble) (s : State) : exec (.ldSt x) s = .next (s.setSt (s.readV x)).advance := rfl

/-! ### The sound timer under `Tick` -/

/-- R186 for `ST`. -/
@[simp] theorem State.tick_st (s : State) : s.tick.st = countDown s.st := rfl

/-- `k` `Tick`s count `ST` down by `k`, floor 0. -/
theorem State.iterate_tick_st_toNat (k : Nat) (s : State) : (State.tick^[k] s).st.toNat = s.st.toNat - k := by
  induction k with
  | zero => rfl
  | succ k ih => rw [Function.iterate_succ_apply', State.tick_st, countDown_toNat, ih, Nat.sub_sub]

/-- The tone is on while `ST` is positive. -/
theorem State.soundOn_iff (s : State) : s.soundOn = true ↔ 0 < s.st.toNat := by
  rw [State.soundOn, decide_eq_true_iff, Nat.pos_iff_ne_zero, ne_eq, ne_eq, BitVec.toNat_eq, BitVec.toNat_zero]

/-- The tone lasts for exactly as many `Tick`s as `ST` holds. -/
theorem State.soundOn_iterate_tick_iff (k : Nat) (s : State) :
    (State.tick^[k] s).soundOn = true ↔ k < s.st.toNat := by
  rw [State.soundOn_iff, State.iterate_tick_st_toNat, Nat.sub_pos_iff_lt]

end Sys2Proof.Machine

namespace Sys2Proof

open Machine

/-- Settles O41: the byte written to `V[X]` is `DT`. -/
theorem readDelayTimer : Obligations.ReadDelayTimer := fun x s =>
  ⟨(decodeWord_familyF x 0x07#8).trans rfl, exec_of_writeV_advance (exec_ldFromDt x s)⟩

/-- Settles O43: one write of `DT` and an advance. -/
theorem setDelayTimer : Obligations.SetDelayTimer := fun x s => by
  have hframe : ChangesOnly (fun l => l = .pc ∨ l = .dt) s (s.setDt (s.readV x)).advance :=
    ((ChangesOnly.refl _ s).setDt (.inr rfl) _).advance (.inl rfl)
  exact ⟨(decodeWord_familyF x 0x15#8).trans rfl, _, exec_ldDt x s, rfl, rfl, hframe⟩

/-- Settles O44: one write of `ST` and an advance; the tone then lasts for as many `Tick`s as `ST` holds, which is
`V[X]`. -/
theorem setSoundTimer : Obligations.SetSoundTimer := fun x s => by
  have hframe : ChangesOnly (fun l => l = .pc ∨ l = .st) s (s.setSt (s.readV x)).advance :=
    ((ChangesOnly.refl _ s).setSt (.inr rfl) _).advance (.inl rfl)
  exact ⟨(decodeWord_familyF x 0x18#8).trans rfl, _, exec_ldSt x s, rfl, rfl, hframe,
    fun k => State.soundOn_iterate_tick_iff k _⟩

end Sys2Proof
end

section
/-! Reset and the parameters (70_reset_and_hazards.md rule R202): no operation of the host touches the parameters, and memory
that is all zero makes every executed word a `NOP`, so that only a `Load` can end it.
-/

namespace Sys2Proof.Machine

/-! ### The host's operations on the parameters -/

/-- `Reset` keeps the parameters (R202). -/
@[simp] theorem State.hostReset_params (s : State) : s.hostReset.params = s.params := rfl

/-- `Tick` writes the timers (R186). -/
@[simp] theorem State.tick_params (s : State) : s.tick.params = s.params := rfl

/-- `Load` writes memory or nothing (R65). -/
@[simp] theorem State.load_params (s : State) (base : Nat) (bytes : List Byte) :
    (s.load base bytes).params = s.params := by
  rcases Nat.lt_or_ge 4096 (base + bytes.length) with h | h
  · rw [s.load_of_not_fits h]
  · rw [s.load_of_fits h]

/-- Taking the next operation off the host's plans leaves the parameters. -/
@[simp] theorem State.nextOp_params (s : State) : s.nextOp.2.params = s.params := by
  obtain ⟨ops, n, hnext, -⟩ := nextOp_eq s
  rw [hnext]

/-- A `Step` keeps the parameters: it answers at once, or executes an instruction, which keeps them. -/
theorem hostStep_params {s t : State} {key : Option Nibble} {rnd : Byte} (h : hostStep key rnd s = .next t) :
    t.params = s.params := by
  rcases hostStep_cases h with ⟨_, -, rfl⟩ | ⟨-, -, rfl⟩ | ⟨-, -, u, hexec, rfl⟩
  · rfl
  · rfl
  · exact (exec_sameHost hexec).params

/-- R202: every operation of the host keeps the parameters. -/
theorem perform_params {op : HostOp} {s t : State} (h : perform op s = .next t) : t.params = s.params := by
  cases op with
  | step key rnd => exact hostStep_params h
  | reset =>
    cases h
    exact s.hostReset_params
  | load base bytes =>
    cases h
    exact s.load_params base bytes
  | tick =>
    cases h
    exact s.tick_params

/-! ### Zero memory -/

/-- Every byte of `MEM` is 0x00, as after reset (R20, R202). -/
def State.MemZero (s : State) : Prop := ∀ a, s.memByte a = 0

/-- The reset state has no byte listed. -/
theorem State.reset_memZero : State.reset.MemZero := fun _ => rfl

/-- `Reset` empties memory, from any state. -/
theorem State.hostReset_memZero (s : State) : s.hostReset.MemZero := fun _ => rfl

/-- Taking the next operation off the host's plans leaves memory. -/
@[simp] theorem State.nextOp_memByte (s : State) (a : Nat) : s.nextOp.2.memByte a = s.memByte a := by
  obtain ⟨ops, n, hnext, -⟩ := nextOp_eq s
  rw [hnext]
  rfl

/-- The word 0x0000 matches no pattern of family 0. -/
theorem decodeWord_zero : decodeWord 0 = .nop 0 := decodeWord_family0_of_ne (nnn := 0) (by decide) (by decide)

/-- From zero memory the machine fetches 0x0000 wherever `pc` is, which is a `NOP`. -/
theorem State.MemZero.decodeWord_fetchWord {s : State} (hz : s.MemZero) : decodeWord s.fetchWord = .nop 0 := by
  have hword : s.fetchWord = 0 := by
    rw [State.fetchWord, hz, hz]
    rfl
  rw [hword, decodeWord_zero]

/-- A `Step` leaves zero memory: what it executes, if anything, is a `NOP`, which writes `pc` alone. -/
theorem State.MemZero.hostStep {s t : State} {key : Option Nibble} {rnd : Byte} (hz : s.MemZero)
    (h : Machine.hostStep key rnd s = .next t) : t.MemZero := by
  rcases hostStep_cases h with ⟨_, -, rfl⟩ | ⟨-, -, rfl⟩ | ⟨-, -, u, hexec, rfl⟩
  · exact hz
  · exact hz
  · rw [hz.decodeWord_fetchWord, exec_nop] at hexec
    cases hexec
    exact hz

/-- Every operation of the host but a `Load` leaves zero memory. -/
theorem State.MemZero.perform {op : HostOp} {s t : State} (hz : s.MemZero) (hop : ∀ base bytes, op ≠ .load base bytes)
    (h : Machine.perform op s = .next t) : t.MemZero := by
  cases op with
  | step key rnd => exact hz.hostStep h
  | load base bytes => exact absurd rfl (hop base bytes)
  | reset =>
    cases h
    exact s.hostReset_memZero
  | tick =>
    cases h
    exact hz

end Sys2Proof.Machine

namespace Sys2Proof

open Machine

/-- Settles O56: a step performs one operation, so the clauses are those of the operations and of the instructions. -/
theorem noFontUntilLoadedAndParametersFixed : Obligations.NoFontUntilLoadedAndParametersFixed := by
  refine ⟨fun s t ht => ?_, fun s t hz hop h => ?_, fun s t h => ?_, fun i s t h => (exec_sameHost h).params⟩
  · rcases ht with rfl | hreset
    · exact State.reset_memZero
    · cases hreset
      exact s.hostReset_memZero
  · have hz' : s.nextOp.2.MemZero := fun a => (s.nextOp_memByte a).trans (hz a)
    exact hz'.perform hop h
  · exact (perform_params h).trans s.nextOp_params

end Sys2Proof
end

section
/-! The encoder and the decoder are inverse to each other (30_encoding.md section 3), and the decoder is the opcode map
of rule R74: the bits that a row compares settle the mnemonic, and no two rows share one.
-/

namespace Sys2Proof

/-! ### Decoding what was encoded -/

/-- A well-formed instruction is what its word decodes to: by the format of its row, and for a `nop` because no row
covers its word. -/
theorem decodeWord_encodeWord {i : Instr} (hwf : i.wf = true) : decodeWord (encodeWord i) = i := by
  cases i with
  | cls | ret => rfl
  | jp nnn | call nnn | ldI nnn => simp only [encodeWord, decodeWord_formatA]
  | jpOff x nnn =>
    have hx : x = nnn.extractLsb' 8 4 := beq_iff_eq.mp hwf
    simp only [encodeWord, decodeWord_formatA, hx]
  | seImm x nn | sneImm x nn | ldImm x nn | addImm x nn | rnd x nn => simp only [encodeWord, decodeWord_formatXI]
  | seReg x y | sneReg x y | drw x y n => simp [encodeWord]
  | ldReg x y | orReg x y | andReg x y | xorReg x y | addReg x y | sub x y | shr x y | subn x y | shl x y =>
    simp [encodeWord]
  | skp x | sknp x => simp [encodeWord]
  | ldFromDt x | ldKey x | ldDt x | ldSt x | addI x | ldFont x | ldBcd x | stRegs x | ldRegs x => simp [encodeWord]
  | nop w => exact decodeWord_of_unrecognised hwf

/-- Two bytes in front of others are read as one word, the high byte first (R53). -/
theorem decode_encode_append (i : Instr) (rest : List Byte) :
    decode (encode i ++ rest) = .ok (decodeWord (encodeWord i), rest) := by
  simp only [encode, List.cons_append, List.nil_append, decode, word_bytes]

/-- Settles O1: the word decodes to the instruction, and the byte decoder reads that word. -/
theorem decodeOfEncode : Obligations.DecodeOfEncode := fun i hwf =>
  ⟨decodeWord_encodeWord hwf, fun rest => by rw [decode_encode_append, decodeWord_encodeWord hwf]⟩

/-! ### The bits that a row compares settle the mnemonic -/

/-- In the families with one pattern for every word, `op` settles the mnemonic. -/
theorem mnemonic_decodeWord_of_op {w v : Word} (ho : opField w = opField v)
    (hv : opField v ∈ [0x1#4, 0x2#4, 0x3#4, 0x4#4, 0x6#4, 0x7#4, 0xA#4, 0xB#4, 0xC#4, 0xD#4]) :
    (decodeWord w).mnemonic = (decodeWord v).mnemonic := by
  simp only [List.mem_cons, List.not_mem_nil, or_false] at hv
  rcases hv with h | h | h | h | h | h | h | h | h | h <;> simp only [decodeWord, ho, h] <;> rfl

/-- In families 5, 8 and 9, `op` and `N` settle it. -/
theorem mnemonic_decodeWord_of_op_n {w v : Word} (ho : opField w = opField v) (hn : nField w = nField v)
    (hv : opField v ∈ [0x5#4, 0x8#4, 0x9#4]) : (decodeWord w).mnemonic = (decodeWord v).mnemonic := by
  simp only [List.mem_cons, List.not_mem_nil, or_false] at hv
  rcases hv with h | h | h <;> simp only [decodeWord, ho, h, decodeFamily8_eq, hn, apply_ite Instr.mnemonic] <;> rfl

/-- Family 0xF is the last arm of the dispatch (R75). -/
theorem decodeWord_of_op_fifteen {w : Word} (ho : opField w = 0xF#4) : decodeWord w = decodeFamilyF w := by
  rw [decodeWord, ho]
  rfl

/-- In families 0xE and 0xF, `op` and `NN` settle it. -/
theorem mnemonic_decodeWord_of_op_nn {w v : Word} (ho : opField w = opField v) (hn : nnField w = nnField v)
    (hv : opField v ∈ [0xE#4, 0xF#4]) : (decodeWord w).mnemonic = (decodeWord v).mnemonic := by
  simp only [List.mem_cons, List.not_mem_nil, or_false] at hv
  rcases hv with h | h
  · simp only [decodeWord, ho, h, decodeFamilyE_eq, hn, apply_ite Instr.mnemonic]
    rfl
  · rw [decodeWord_of_op_fifteen (ho.trans h), decodeWord_of_op_fifteen h]
    simp only [decodeFamilyF_eq, hn, apply_ite Instr.mnemonic]
    rfl

/-- What mask 0xF00F leaves of a word has the word's `op` and `N`. -/
theorem fields_op_zero_n : ∀ o n : Nibble, opField (o ++ 0#8 ++ n) = o ∧ nField (o ++ 0#8 ++ n) = n := by
  decide

/-- The four kinds of row: each compares the bits that its family's dispatch looks at. -/
theorem opcodeRow_kind : ∀ r ∈ opcodeRows, r.mask = 0xFFFF ∨
    (r.mask = 0xF000 ∧ opField r.value ∈ [0x1#4, 0x2#4, 0x3#4, 0x4#4, 0x6#4, 0x7#4, 0xA#4, 0xB#4, 0xC#4, 0xD#4]) ∨
    (r.mask = 0xF00F ∧ opField r.value ∈ [0x5#4, 0x8#4, 0x9#4]) ∨
    (r.mask = 0xF0FF ∧ opField r.value ∈ [0xE#4, 0xF#4]) := by
  decide

/-- The row's own pattern, all other bits 0, decodes to an instruction of the row. -/
theorem mnemonic_decodeWord_value : ∀ r ∈ opcodeRows, (decodeWord r.value).mnemonic = r.mnemonic := by
  decide

/-- A word that a row covers decodes to an instruction of the row: it has the row's pattern in the compared bits. -/
theorem mnemonic_decodeWord_of_covers {r : OpcodeRow} {w : Word} (hr : r ∈ opcodeRows) (hc : r.covers w = true) :
    (decodeWord w).mnemonic = r.mnemonic := by
  have hc' : w &&& r.mask = r.value := beq_iff_eq.mp hc
  rw [← mnemonic_decodeWord_value r hr]
  rcases opcodeRow_kind r hr with hm | ⟨hm, hop⟩ | ⟨hm, hop⟩ | ⟨hm, hop⟩ <;> rw [hm] at hc'
  · rw [← hc']
    exact congrArg _ (congrArg _ (mask_all w).symm)
  · have hw := (mask_op w).symm.trans hc'
    exact mnemonic_decodeWord_of_op (by rw [← hw, opField_formatA]) hop
  · have hw := (mask_op_n w).symm.trans hc'
    obtain ⟨hwo, hwn⟩ := fields_op_zero_n (opField w) (nField w)
    exact mnemonic_decodeWord_of_op_n (by rw [← hw, hwo]) (by rw [← hw, hwn]) hop
  · have hw := (mask_op_nn w).symm.trans hc'
    exact mnemonic_decodeWord_of_op_nn (by rw [← hw, opField_formatXI]) (by rw [← hw, nnField_formatXI]) hop

/-! ### Every decoded instruction is well-formed -/

/-- No row of the map is called `NOP`. -/
theorem opcodeRow_mnemonic_ne_nop : ∀ r ∈ opcodeRows, r.mnemonic ≠ "NOP" := by
  decide

/-- A recognised word is covered by some row (R77). -/
theorem exists_covers_of_not_unrecognised {w : Word} (h : ¬ unrecognised w = true) :
    ∃ r ∈ opcodeRows, r.covers w = true := by
  simpa [unrecognised] using h

/-- A word that decodes to a `nop` is covered by no row, or it would decode to that row's instruction (R77). -/
theorem unrecognised_of_decodeWord_eq_nop {w : Word} (h : decodeWord w = .nop w) : unrecognised w = true := by
  by_contra hu
  obtain ⟨r, hr, hc⟩ := exists_covers_of_not_unrecognised hu
  have hmn := mnemonic_decodeWord_of_covers hr hc
  rw [h] at hmn
  exact opcodeRow_mnemonic_ne_nop r hr hmn.symm

/-- The decoder gives well-formed instructions only: `jpOff` and `nop`, which alone can fail, are read off the word. -/
theorem wf_decodeWord (w : Word) : (decodeWord w).wf = true := by
  have hword := encodeWord_decodeWord w
  cases hdec : decodeWord w with
  | jpOff x nnn =>
    obtain ⟨-, -, -, hjp⟩ := decodeWord_formatA nnn
    rw [hdec] at hword
    have hsame : Instr.jpOff (nnn.extractLsb' 8 4) nnn = .jpOff x nnn := hjp.symm.trans ((congrArg _ hword).trans hdec)
    cases hsame
    exact beq_self_eq_true _
  | nop v =>
    rw [hdec] at hword
    have hv : v = w := hword
    subst hv
    exact unrecognised_of_decodeWord_eq_nop hdec
  | _ => rfl

/-- Settles O2: well-formedness, and the word put together again from the decoded fields. -/
theorem encodeOfDecode : Obligations.EncodeOfDecode := fun w => ⟨wf_decodeWord w, encodeWord_decodeWord w⟩

/-! ### The decoder is the opcode map -/

/-- The mnemonics of the 34 rows are distinct. -/
theorem nodup_opcodeRow_mnemonic : (opcodeRows.map OpcodeRow.mnemonic).Nodup := by
  decide

/-- The row of the decoded instruction covers the word: its row is the only one with its mnemonic. -/
theorem covers_of_mnemonic_decodeWord {r : OpcodeRow} {w : Word} (hr : r ∈ opcodeRows)
    (h : (decodeWord w).mnemonic = r.mnemonic) : r.covers w = true := by
  rcases matchesRow (decodeWord w) (wf_decodeWord w) with ⟨r', hr', hmn, hc⟩ | ⟨hmn, -⟩
  · have hsame : r' = r := List.inj_on_of_nodup_map nodup_opcodeRow_mnemonic hr' hr (hmn.trans h)
    rwa [encodeWord_decodeWord, hsame] at hc
  · exact absurd (h.symm.trans hmn) (opcodeRow_mnemonic_ne_nop r hr)

/-- Settles O3: a covered word has the row's mnemonic and the other way round, and a `nop` is the word of no row. -/
theorem decodeFollowsOpcodeMap : Obligations.DecodeFollowsOpcodeMap := fun _ =>
  ⟨fun _ hr => ⟨mnemonic_decodeWord_of_covers hr, covers_of_mnemonic_decodeWord hr⟩,
    decodeWord_of_unrecognised, unrecognised_of_decodeWord_eq_nop⟩

/-- Settles O5: the ten words, evaluated. -/
theorem printedWordsDecode : Obligations.PrintedWordsDecode := by
  unfold Obligations.PrintedWordsDecode
  decide

end Sys2Proof
end

section
/-! What the remaining instructions do, one equation for each, or one for each side of its check; and the frames of the
updates they are made of.
-/

namespace Sys2Proof.Machine

/-! ### Instructions without a check -/

/-- R150. -/
@[simp] theorem exec_cls (s : State) : exec .cls s = .next (s.setFb clearScreen).advance := rfl

/-- R103. -/
@[simp] theorem exec_jpOff (x : Nibble) (nnn : Addr) (s : State) :
    exec (.jpOff x nnn) s = .next (s.goto (zextAddr nnn + zextByte (s.readV (s.jumpReg x)))) := rfl

/-- R114. -/
@[simp] theorem exec_skp (x : Nibble) (s : State) :
    exec (.skp x) s = .next (s.skipIf (s.keyIs (s.readV x))) := rfl

/-- R115. -/
@[simp] theorem exec_sknp (x : Nibble) (s : State) :
    exec (.sknp x) s = .next (s.skipIf (!s.keyIs (s.readV x))) := rfl

/-- R125. -/
@[simp] theorem exec_orReg (x y : Nibble) (s : State) :
    exec (.orReg x y) s = .next (s.writeV x (s.readV x ||| s.readV y)).advance := rfl

/-- R126. -/
@[simp] theorem exec_andReg (x y : Nibble) (s : State) :
    exec (.andReg x y) s = .next (s.writeV x (s.readV x &&& s.readV y)).advance := rfl

/-- R127. -/
@[simp] theorem exec_xorReg (x y : Nibble) (s : State) :
    exec (.xorReg x y) s = .next (s.writeV x (s.readV x ^^^ s.readV y)).advance := rfl

/-- R128. -/
@[simp] theorem exec_addReg (x y : Nibble) (s : State) : exec (.addReg x y) s =
    .next (s.writeWithFlag x (s.readV x + s.readV y) (carryOut (s.readV x) (s.readV y))).advance := rfl

/-- R129. -/
@[simp] theorem exec_sub (x y : Nibble) (s : State) : exec (.sub x y) s =
    .next (s.writeWithFlag x (s.readV x - s.readV y) (notBorrow (s.readV x) (s.readV y))).advance := rfl

/-- R130. -/
@[simp] theorem exec_shr (x y : Nibble) (s : State) : exec (.shr x y) s =
    .next (s.writeWithFlag x (s.readV x >>> 1) (shiftOutLow (s.readV x))).advance := rfl

/-- R131. -/
@[simp] theorem exec_subn (x y : Nibble) (s : State) : exec (.subn x y) s =
    .next (s.writeWithFlag x (s.readV y - s.readV x) (notBorrow (s.readV y) (s.readV x))).advance := rfl

/-- R132. -/
@[simp] theorem exec_shl (x y : Nibble) (s : State) : exec (.shl x y) s =
    .next (s.writeWithFlag x (s.readV x <<< 1) (shiftOutHigh (s.readV x))).advance := rfl

/-- R133. -/
@[simp] theorem exec_rnd (x : Nibble) (nn : Byte) (s : State) :
    exec (.rnd x nn) s = .next (s.writeV x (s.rnd &&& nn)).advance := rfl

/-- R141. -/
@[simp] theorem exec_addI (x : Nibble) (s : State) :
    exec (.addI x) s = .next (s.setIdx (s.idx + zextByte (s.readV x))).advance := rfl

/-! ### Instructions with a check -/

/-- The check of a transfer of `V[0]`..`V[X]` (R56): the last address is `I + X`. -/
theorem State.transferFits_regCount_iff (s : State) (x : Nibble) :
    s.transferFits (regCount x) = true ↔ s.idx.toNat + x.toNat ≤ 4095 := by
  rw [s.transferFits_iff, regCount]
  omega

/-- The check of the three bytes of `FX33` (R56). -/
theorem State.transferFits_three_iff (s : State) : s.transferFits 3 = true ↔ s.idx.toNat + 2 ≤ 4095 := by
  rw [s.transferFits_iff]
  omega

/-- R102 with room on the stack. -/
theorem exec_call_of_room {s : State} (h : s.stack.length < s.params.stackDepth) (nnn : Addr) :
    exec (.call nnn) s = .next ((s.push (s.pc + 2)).goto (zextAddr nnn)) :=
  if_pos (decide_eq_true h)

/-- R102 on a full stack: StackOverflow. -/
theorem exec_call_of_full {s : State} (h : s.params.stackDepth ≤ s.stack.length) (nnn : Addr) :
    exec (.call nnn) s = takeFault .stackOverflow s :=
  if_neg (by simpa [State.hasStackRoom] using h)

/-- R143 for a digit. -/
theorem exec_ldFont_of_digit {s : State} {x : Nibble} (h : (s.readV x).toNat ≤ 15) :
    exec (.ldFont x) s = .next (s.setIdx (fontAddress s.params (s.readV x))).advance :=
  if_neg (Nat.not_lt.mpr h)

/-- R143 above 15: FontDigitRange. -/
theorem exec_ldFont_of_not_digit {s : State} {x : Nibble} (h : 15 < (s.readV x).toNat) :
    exec (.ldFont x) s = takeFault .fontDigitRange s :=
  if_pos h

/-- R144 inside memory. -/
theorem exec_ldBcd_of_fits {s : State} (h : s.idx.toNat + 2 ≤ 4095) (x : Nibble) :
    exec (.ldBcd x) s = .next (s.setMem (s.mem.writeBytes s.idx.toNat (bcdDigits (s.readV x)))).advance :=
  if_pos (s.transferFits_three_iff.mpr h)

/-- R144 past the end of memory: MemRange. -/
theorem exec_ldBcd_of_not_fits {s : State} (h : 4095 < s.idx.toNat + 2) (x : Nibble) :
    exec (.ldBcd x) s = takeFault .memRange s :=
  if_neg fun hfits => Nat.not_lt.mpr (s.transferFits_three_iff.mp hfits) h

/-- R145 inside memory. -/
theorem exec_stRegs_of_fits {s : State} {x : Nibble} (h : s.idx.toNat + x.toNat ≤ 4095) :
    exec (.stRegs x) s = .next (s.setMem (s.mem.writeBytes s.idx.toNat (s.firstRegs x))).advance :=
  if_pos ((s.transferFits_regCount_iff x).mpr h)

/-- R145 past the end of memory: MemRange. -/
theorem exec_stRegs_of_not_fits {s : State} {x : Nibble} (h : 4095 < s.idx.toNat + x.toNat) :
    exec (.stRegs x) s = takeFault .memRange s :=
  if_neg fun hfits => Nat.not_lt.mpr ((s.transferFits_regCount_iff x).mp hfits) h

/-- R146 inside memory. -/
theorem exec_ldRegs_of_fits {s : State} {x : Nibble} (h : s.idx.toNat + x.toNat ≤ 4095) :
    exec (.ldRegs x) s = .next (s.writeRegs 0x0 (s.mem.readBytes s.idx.toNat (regCount x))).advance :=
  if_pos ((s.transferFits_regCount_iff x).mpr h)

/-- R146 past the end of memory: MemRange. -/
theorem exec_ldRegs_of_not_fits {s : State} {x : Nibble} (h : 4095 < s.idx.toNat + x.toNat) :
    exec (.ldRegs x) s = takeFault .memRange s :=
  if_neg fun hfits => Nat.not_lt.mpr ((s.transferFits_regCount_iff x).mp hfits) h

/-- R152 with the rows on the screen inside memory. -/
theorem exec_drw_of_fits {s : State} {y n : Nibble}
    (h : s.rowsOnScreen y n = 0 ∨ s.idx.toNat + s.rowsOnScreen y n - 1 ≤ 4095) (x : Nibble) :
    exec (.drw x y n) s = .next (s.drawCells (s.spriteCells x y n)).advance :=
  if_pos ((s.drawFits_iff y n).mpr h)

/-- R152 with a row on the screen past the end of memory: MemRange. -/
theorem exec_drw_of_not_fits {s : State} {y n : Nibble}
    (h : ¬ (s.rowsOnScreen y n = 0 ∨ s.idx.toNat + s.rowsOnScreen y n - 1 ≤ 4095)) (x : Nibble) :
    exec (.drw x y n) s = takeFault .memRange s :=
  if_neg fun hfits => h ((s.drawFits_iff y n).mp hfits)

/-! ### Frames -/

/-- A skip stays within every frame that allows `pc`. -/
theorem ChangesOnly.skipIf {P : Loc → Prop} {s t : State} (h : ChangesOnly P s t) (hpc : P .pc) (c : Bool) :
    ChangesOnly P s (t.skipIf c) := h.goto hpc _

/-- Replacing the stack stays within every frame that allows the stack. -/
theorem ChangesOnly.setStack {P : Loc → Prop} {s t : State} (h : ChangesOnly P s t) (hstack : P .stack)
    (l : List Word) : ChangesOnly P s (t.setStack l) := fun loc hloc => by
  cases loc with
  | stack => exact absurd hstack hloc
  | _ => exact h _ hloc

/-- Replacing the framebuffer stays within every frame that allows all cells. -/
theorem ChangesOnly.setFb {P : Loc → Prop} {s t : State} (h : ChangesOnly P s t) (hfb : ∀ y x, P (.cell y x))
    (f : Screen) : ChangesOnly P s (t.setFb f) := fun l hl => by
  cases l with
  | cell y x => exact absurd (hfb y x) hl
  | _ => exact h _ hl

/-- Writing a cell stays within every frame that allows that cell. -/
theorem ChangesOnly.setCell {P : Loc → Prop} {s t : State} {y : Fin 32} {x : Fin 64} (h : ChangesOnly P s t)
    (hcell : P (.cell y x)) (b : Bool) : ChangesOnly P s (t.setCell y x b) := fun l hl => by
  cases l with
  | cell y' x' =>
    have hne : ¬(y = y' ∧ x = x') := fun ⟨ey, ex⟩ => hl (ey ▸ ex ▸ hcell)
    exact (t.cell_setCell y y' x x' b).trans ((if_neg hne).trans (h _ hl))
  | _ => exact h _ hl

/-- Result and flag stay within every frame that allows `V[x]` and `VF`. -/
theorem ChangesOnly.writeWithFlag {P : Loc → Prop} {s t : State} {x : Nibble} (h : ChangesOnly P s t)
    (hx : P (.reg x)) (hf : P (.reg 0xF#4)) (r : Byte) (f : Bool) : ChangesOnly P s (t.writeWithFlag x r f) :=
  (h.writeV hx r).writeV hf _

/-- A run of stores stays within every frame that allows the bytes it covers. -/
theorem ChangesOnly.writeBytes {P : Loc → Prop} {s t : State} (h : ChangesOnly P s t) (hm : t.mem.wf) {a : Nat}
    {bs : List Byte} (hP : ∀ k, k < bs.length → P (.byte (a + k))) :
    ChangesOnly P s (t.setMem (t.mem.writeBytes a bs)) := fun l hl => by
  cases l with
  | byte a' =>
    have hout : ¬(a ≤ a' ∧ a' < a + bs.length) := fun ⟨hlo, hhi⟩ => by
      obtain ⟨k, rfl⟩ := Nat.exists_eq_add_of_le hlo
      exact hl (hP k (by omega))
    exact (Memory.read_writeBytes hm.1 a a' bs).trans ((dif_neg hout).trans (h _ hl))
  | _ => exact h _ hl

/-- A run of register writes stays within every frame that allows the registers it covers. -/
theorem ChangesOnly.writeRegs {P : Loc → Prop} {s t : State} (h : ChangesOnly P s t) {k : Nibble} {bs : List Byte}
    (hlen : k.toNat + bs.length ≤ 16)
    (hP : ∀ r : Nibble, k.toNat ≤ r.toNat → r.toNat < k.toNat + bs.length → P (.reg r)) :
    ChangesOnly P s (t.writeRegs k bs) := fun l hl => by
  obtain ⟨v, hv⟩ := t.writeRegs_eq k bs
  cases l with
  | reg r =>
    have hout : ¬(k.toNat ≤ r.toNat ∧ r.toNat < k.toNat + bs.length) := fun ⟨hlo, hhi⟩ => hl (hP r hlo hhi)
    exact (t.readV_writeRegs k r bs hlen).trans ((dif_neg hout).trans (h _ hl))
  | _ =>
    rw [hv]
    exact h _ hl

/-- Drawing one lit bit stays within every frame that allows `VF` and the cell. -/
theorem ChangesOnly.drawCell {P : Loc → Prop} {s t : State} {p : Fin 32 × Fin 64} (h : ChangesOnly P s t)
    (hf : P (.reg 0xF#4)) (hcell : P (.cell p.1 p.2)) : ChangesOnly P s (t.drawCell p) := by
  unfold State.drawCell
  split
  · exact ((h.writeV hf _).setCell hcell _).writeV hf _
  · exact (h.writeV hf _).setCell hcell _

/-- Drawing a list of lit bits stays within every frame that allows their cells and, if there are any, `VF`. -/
theorem ChangesOnly.drawCells {P : Loc → Prop} {s t : State} {ps : List (Fin 32 × Fin 64)} (h : ChangesOnly P s t)
    (hP : ∀ p ∈ ps, P (.reg 0xF#4) ∧ P (.cell p.1 p.2)) : ChangesOnly P s (t.drawCells ps) := by
  induction ps generalizing t with
  | nil => exact h
  | cons p ps ih =>
    obtain ⟨hf, hcell⟩ := hP p List.mem_cons_self
    exact ih (h.drawCell hf hcell) fun q hq => hP q (List.mem_cons_of_mem p hq)

/-- A wider frame holds too. -/
theorem ChangesOnly.mono {P Q : Loc → Prop} {s t : State} (h : ChangesOnly P s t) (hPQ : ∀ l, P l → Q l) :
    ChangesOnly Q s t := fun l hl => h l fun hp => hl (hPQ l hp)

end Sys2Proof.Machine
end

section
/-! Calls, offset jumps and the key skips (41_flow.md, 42_skip.md).
-/

namespace Sys2Proof.Machine

/-- `NNN` plus a byte is below 65536, so the 16-bit sum is the sum of the numbers (R103). -/
theorem zextAddr_add_zextByte_toNat (nnn : Addr) (b : Byte) :
    (zextAddr nnn + zextByte b).toNat = nnn.toNat + b.toNat := by
  have hnnn := nnn.isLt
  have hb := b.isLt
  have hlt : (zextAddr nnn).toNat + (zextByte b).toNat < 2 ^ 16 := by
    rw [zextAddr_toNat, zextByte_toNat]
    omega
  rw [BitVec.toNat_add_of_lt hlt, zextAddr_toNat, zextByte_toNat]

/-- No key, a register value above 15, and another key are no match (R114). -/
theorem State.keyIs_false_of_no_match {s : State} {b : Byte}
    (h : s.key = none ∨ b.toNat > 15 ∨ ∃ k, s.key = some k ∧ k.toNat ≠ b.toNat) : s.keyIs b = false := by
  rw [Bool.eq_false_iff, ne_eq, s.keyIs_iff]
  rintro ⟨k, hk, hkb⟩
  rcases h with hnone | hbig | ⟨k', hk', hne⟩
  · rw [hnone] at hk
    cases hk
  · have hlt := k.isLt
    omega
  · cases hk.symm.trans hk'
    exact hne hkb

end Sys2Proof.Machine

namespace Sys2Proof

open Machine

/-! ### Calls and offset jumps -/

/-- Settles O15: with room one push and one jump, on a full stack the fault. -/
theorem callPushesReturnAddress : Obligations.CallPushesReturnAddress := fun nnn s => by
  obtain ⟨-, hcall, -⟩ := decodeWord_formatA nnn
  refine ⟨hcall, fun hroom => ?_, fun hfull => exec_call_of_full hfull nnn⟩
  have hframe : ChangesOnly (fun l => l = .pc ∨ l = .stack) s ((s.push (s.pc + 2)).goto (zextAddr nnn)) :=
    ((ChangesOnly.refl _ s).setStack (.inr rfl) _).goto (.inl rfl) _
  exact ⟨_, exec_call_of_room hroom nnn, rfl, zextAddr_toNat nnn, hframe⟩

/-- Settles O16: one write of `pc`, with a sum that does not wrap. -/
theorem offsetJumpAddsRegister : Obligations.OffsetJumpAddsRegister := fun nnn s => by
  obtain ⟨-, -, -, hjp⟩ := decodeWord_formatA nnn
  exact ⟨hjp, fun x => ⟨_, exec_jpOff x nnn s, zextAddr_add_zextByte_toNat nnn _,
    (ChangesOnly.refl (· = .pc) s).goto rfl _⟩⟩

/-- Settles O17: the `RET` pops what the `CALL` pushed. -/
theorem callThenReturnResumes : Obligations.CallThenReturnResumes := fun nnn s hroom => by
  refine ⟨_, exec_call_of_room hroom nnn, fun u hu => ?_⟩
  have hframe : ChangesOnly (fun l => l = .pc ∨ l = .stack) u ((u.setStack s.stack).goto (s.pc + 2)) :=
    ((ChangesOnly.refl _ u).setStack (.inr rfl) _).goto (.inl rfl) _
  exact ⟨_, exec_ret_of_cons hu, rfl, rfl, hframe⟩

/-! ### Skips on the key -/

/-- Settles O20: both are one skip, split by whether the key is `V[X]`. -/
theorem skipOnKey : Obligations.SkipOnKey := fun x s => by
  refine ⟨(decodeWord_familyE x 0x9E#8).trans rfl, (decodeWord_familyE x 0xA1#8).trans rfl, fun k hk hkb => ?_,
    fun hno => ?_⟩ <;> rw [exec_skp, exec_sknp]
  · rw [(s.keyIs_iff _).mpr ⟨k, hk, hkb⟩]
    exact ⟨rfl, rfl⟩
  · rw [State.keyIs_false_of_no_match hno]
    exact ⟨rfl, rfl⟩

end Sys2Proof
end

section
/-! Logic, flags and the random byte (43_alu.md): an instruction that writes no flag is one register write, one that
does is a result and then the flag.
-/

namespace Sys2Proof.Machine

/-- An instruction that is a result, a flag and an advance (R121): the result unless `x` is `VF`, the flag in `VF`, its
next `pc`, its frame. -/
theorem exec_of_writeWithFlag_advance {i : Instr} {s : State} {x : Nibble} {r : Byte} {f : Bool}
    (h : exec i s = .next (s.writeWithFlag x r f).advance) :
    ∃ t, exec i s = .next t ∧ (x ≠ 0xF#4 → t.readV x = r) ∧ t.readV 0xF#4 = flagByte f ∧ t.pc = s.pc + 2 ∧
      ChangesOnly (fun l => l = .pc ∨ l = .reg x ∨ l = .reg 0xF#4) s t := by
  have hresult (hx : x ≠ 0xF#4) : (s.writeWithFlag x r f).readV x = r := by
    rw [s.readV_writeWithFlag, if_neg hx, if_pos rfl]
  have hflag : (s.writeWithFlag x r f).readV 0xF#4 = flagByte f := by rw [s.readV_writeWithFlag, if_pos rfl]
  have hframe : ChangesOnly (fun l => l = .pc ∨ l = .reg x ∨ l = .reg 0xF#4) s (s.writeWithFlag x r f).advance :=
    ((ChangesOnly.refl _ s).writeWithFlag (.inr (.inl rfl)) (.inr (.inr rfl)) r f).advance (.inl rfl)
  exact ⟨_, h, hresult, hflag, rfl, hframe⟩

/-! ### The flags as comparisons of numbers -/

/-- A flag that is a decided proposition. -/
theorem flagByte_decide (p : Prop) [Decidable p] : flagByte (decide p) = if p then 1 else 0 := by
  by_cases hp : p <;> simp [flagByte, hp]

/-- R128. -/
theorem flagByte_carryOut (a b : Byte) : flagByte (carryOut a b) = if a.toNat + b.toNat > 255 then 1 else 0 :=
  flagByte_decide _

/-- R129, R131. -/
theorem flagByte_notBorrow (a b : Byte) : flagByte (notBorrow a b) = if a.toNat ≥ b.toNat then 1 else 0 :=
  flagByte_decide _

/-- R130: the bit a shift right drops is the remainder by 2. -/
theorem flagByte_shiftOutLow_toNat (a : Byte) : (flagByte (shiftOutLow a)).toNat = a.toNat % 2 := by
  revert a
  decide

/-- R132: the bit a shift left drops is set from 128 on. -/
theorem flagByte_shiftOutHigh (a : Byte) : flagByte (shiftOutHigh a) = if a.toNat ≥ 128 then 1 else 0 := by
  revert a
  decide

/-! ### The results as numbers -/

/-- The 8-bit difference (R129, R131). -/
theorem sub_byte_toNat (a b : Byte) : (a - b).toNat = (a.toNat + 256 - b.toNat) % 256 := by
  have hb := b.isLt
  rw [BitVec.toNat_sub]
  omega

/-- The byte shifted right by one (R130). -/
theorem shiftRight_one_toNat (a : Byte) : (a >>> 1).toNat = a.toNat / 2 := by
  rw [BitVec.toNat_ushiftRight, Nat.shiftRight_eq_div_pow, pow_one]

/-- The byte shifted left by one (R132). -/
theorem shiftLeft_one_toNat (a : Byte) : (a <<< 1).toNat = 2 * a.toNat % 256 := by
  rw [BitVec.toNat_shiftLeft, Nat.shiftLeft_eq, pow_one, Nat.mul_comm]

end Sys2Proof.Machine

namespace Sys2Proof

open Machine

/-- Settles O24: each is one register write, of the bitwise operation. -/
theorem logicWritesNoFlag : Obligations.LogicWritesNoFlag := fun x y s i f h => by
  rcases h with ⟨rfl, rfl, -⟩ | ⟨rfl, rfl, -⟩ | ⟨rfl, rfl, -⟩
  · obtain ⟨t, hexec, hres, hrest⟩ := exec_of_writeV_advance (exec_orReg x y s)
    exact ⟨t, hexec, fun k _ => by rw [hres, BitVec.getLsbD_or], hrest⟩
  · obtain ⟨t, hexec, hres, hrest⟩ := exec_of_writeV_advance (exec_andReg x y s)
    exact ⟨t, hexec, fun k _ => by rw [hres, BitVec.getLsbD_and], hrest⟩
  · obtain ⟨t, hexec, hres, hrest⟩ := exec_of_writeV_advance (exec_xorReg x y s)
    exact ⟨t, hexec, fun k _ => by rw [hres, BitVec.getLsbD_xor], hrest⟩

/-- Settles O25: the 8-bit sum, then the carry. -/
theorem addSetsCarry : Obligations.AddSetsCarry := fun x y s => by
  obtain ⟨t, hexec, hres, hflag, hrest⟩ := exec_of_writeWithFlag_advance (exec_addReg x y s)
  refine ⟨(decodeWord_family8 x y 0x4#4).trans rfl, t, hexec, fun hx => ?_, ?_, hrest⟩
  · rw [hres hx, BitVec.toNat_add]
  · rw [hflag, flagByte_carryOut]

/-- Settles O26: the 8-bit difference, then the absence of a borrow, for both orders of the operands. -/
theorem subtractSetsNotBorrow : Obligations.SubtractSetsNotBorrow := fun x y s => by
  refine ⟨(decodeWord_family8 x y 0x5#4).trans rfl, (decodeWord_family8 x y 0x7#4).trans rfl, ?_, ?_⟩
  · obtain ⟨t, hexec, hres, hflag, hrest⟩ := exec_of_writeWithFlag_advance (exec_sub x y s)
    exact ⟨t, hexec, fun hx => by rw [hres hx, sub_byte_toNat], by rw [hflag, flagByte_notBorrow], hrest⟩
  · obtain ⟨t, hexec, hres, hflag, hrest⟩ := exec_of_writeWithFlag_advance (exec_subn x y s)
    exact ⟨t, hexec, fun hx => by rw [hres hx, sub_byte_toNat], by rw [hflag, flagByte_notBorrow], hrest⟩

/-- Settles O27: the byte shifted by one, then the bit it drops. -/
theorem shiftsSetBitOut : Obligations.ShiftsSetBitOut := fun x y s => by
  refine ⟨(decodeWord_family8 x y 0x6#4).trans rfl, (decodeWord_family8 x y 0xE#4).trans rfl, ?_, ?_⟩
  · obtain ⟨t, hexec, hres, hflag, hrest⟩ := exec_of_writeWithFlag_advance (exec_shr x y s)
    exact ⟨t, hexec, fun hx => by rw [hres hx, shiftRight_one_toNat], by rw [hflag, flagByte_shiftOutLow_toNat], hrest⟩
  · obtain ⟨t, hexec, hres, hflag, hrest⟩ := exec_of_writeWithFlag_advance (exec_shl x y s)
    exact ⟨t, hexec, fun hx => by rw [hres hx, shiftLeft_one_toNat], by rw [hflag, flagByte_shiftOutHigh], hrest⟩

/-- Settles O28: one register write, of the random byte masked. -/
theorem randomIsMasked : Obligations.RandomIsMasked := fun x nn s => by
  obtain ⟨-, -, -, -, hrnd⟩ := decodeWord_formatXI x nn
  obtain ⟨t, hexec, hres, hrest⟩ := exec_of_writeV_advance (exec_rnd x nn s)
  exact ⟨hrnd, t, hexec, fun k _ => by rw [hres, BitVec.getLsbD_and], hrest⟩

end Sys2Proof
end

section
/-! The index register and the memory transfers (44_index_memory.md), and the host's `Load` (20_memory.md section 7):
one lemma says what a run of stores leaves, one what a run of register loads leaves.
-/

namespace Sys2Proof.Machine

/-! ### `pc` inside memory -/

/-- The next instruction's address does not wrap (R26). -/
theorem toNat_add_two {w : Word} (h : w.toNat ≤ 0xFFE) : (w + 2).toNat = w.toNat + 2 :=
  BitVec.toNat_add_of_lt (show w.toNat + 2 < 65536 by omega)

/-- Nor does the address after a skip (R26). -/
theorem toNat_add_four {w : Word} (h : w.toNat ≤ 0xFFE) : (w + 4).toNat = w.toNat + 4 :=
  BitVec.toNat_add_of_lt (show w.toNat + 4 < 65536 by omega)

/-! ### Stores -/

/-- The `k`-th byte of a run of stores. -/
theorem Memory.read_writeBytes_add {m : Memory} (hm : m.wf) (a : Nat) {bs : List Byte} {k : Nat} (hk : k < bs.length) :
    (m.writeBytes a bs).read (a + k) = bs[k] := by
  have hin : a ≤ a + k ∧ a + k < a + bs.length := by omega
  rw [Memory.read_writeBytes hm.1, dif_pos hin]
  simp only [Nat.add_sub_cancel_left]

/-- A byte outside a run of stores. -/
theorem Memory.read_writeBytes_of_outside {m : Memory} (hm : m.wf) {a a' : Nat} {bs : List Byte}
    (h : a' < a ∨ a + bs.length ≤ a') : (m.writeBytes a bs).read a' = m.read a' := by
  have hout : ¬(a ≤ a' ∧ a' < a + bs.length) := by omega
  rw [Memory.read_writeBytes hm.1, dif_neg hout]

/-- An instruction that is a run of stores and an advance: the bytes, its next `pc`, its frame. -/
theorem exec_of_writeBytes_advance {i : Instr} {s : State} {a : Nat} {bs : List Byte} (hm : s.mem.wf)
    (h : exec i s = .next (s.setMem (s.mem.writeBytes a bs)).advance) :
    ∃ t, exec i s = .next t ∧ (∀ k (hk : k < bs.length), t.memByte (a + k) = bs[k]) ∧ t.pc = s.pc + 2 ∧
      ChangesOnly (fun l => l = .pc ∨ ∃ k, k < bs.length ∧ l = .byte (a + k)) s t := by
  have hframe : ChangesOnly (fun l => l = .pc ∨ ∃ k, k < bs.length ∧ l = .byte (a + k)) s
      (s.setMem (s.mem.writeBytes a bs)).advance :=
    ((ChangesOnly.refl _ s).writeBytes hm fun k hk => .inr ⟨k, hk, rfl⟩).advance (.inl rfl)
  exact ⟨_, h, fun _ hk => Memory.read_writeBytes_add hm a hk, rfl, hframe⟩

/-- The three decimal digits fit their bytes (R144). -/
theorem bcdDigits_toNat (b : Byte) :
    ((bcdDigits b)[0]).toNat = b.toNat / 100 ∧ ((bcdDigits b)[1]).toNat = b.toNat / 10 % 10 ∧
      ((bcdDigits b)[2]).toNat = b.toNat % 10 := by
  have hb := b.isLt
  simp only [bcdDigits, List.getElem_cons_zero, List.getElem_cons_succ, BitVec.toNat_ofNat]
  omega

/-- `V[r]` stands at place `r` of `V[0]`..`V[X]`. -/
theorem State.getElem_firstRegs_toNat (s : State) {x r : Nibble} (h : r.toNat < (s.firstRegs x).length) :
    (s.firstRegs x)[r.toNat] = s.readV r := by
  rw [s.getElem_firstRegs, BitVec.ofNat_toNat, BitVec.setWidth_eq]

/-- A register is one of `V[0]`..`V[X]` (R145, R146). -/
theorem lt_regCount_iff {k : Nat} {x : Nibble} : k < regCount x ↔ k ≤ x.toNat := Nat.lt_succ_iff

/-! ### Register loads -/

/-- The registers that `FX65` loads are among the sixteen. -/
theorem regCount_le_sixteen (x : Nibble) : regCount x ≤ 16 := x.isLt

/-- A register loaded by `FX65`, and one that is not. -/
theorem State.readV_loadRegs (s : State) (m : Memory) (a : Nat) (x r : Nibble) :
    (s.writeRegs 0x0 (m.readBytes a (regCount x))).readV r =
      if r.toNat ≤ x.toNat then m.read (a + r.toNat) else s.readV r := by
  have hlen : (0x0 : Nibble).toNat + (m.readBytes a (regCount x)).length ≤ 16 := by
    simpa using regCount_le_sixteen x
  rw [s.readV_writeRegs _ _ _ hlen]
  by_cases hr : r.toNat ≤ x.toNat
  · have hin : (0x0 : Nibble).toNat ≤ r.toNat ∧
        r.toNat < (0x0 : Nibble).toNat + (m.readBytes a (regCount x)).length := by
      simpa using lt_regCount_iff.mpr hr
    rw [dif_pos hin, if_pos hr, Memory.getElem_readBytes]
    rfl
  · have hout : ¬((0x0 : Nibble).toNat ≤ r.toNat ∧
        r.toNat < (0x0 : Nibble).toNat + (m.readBytes a (regCount x)).length) := by
      simpa using fun hlt => hr (lt_regCount_iff.mp hlt)
    rw [dif_neg hout, if_neg hr]

/-- `FX65` stays within every frame that allows `V[0]`..`V[X]`. -/
theorem ChangesOnly.loadRegs {P : Loc → Prop} {s t : State} {x : Nibble} (h : ChangesOnly P s t)
    (hP : ∀ r : Nibble, r.toNat ≤ x.toNat → P (.reg r)) (m : Memory) (a : Nat) :
    ChangesOnly P s (t.writeRegs 0x0 (m.readBytes a (regCount x))) := by
  refine h.writeRegs (by simpa using regCount_le_sixteen x) fun r _ hr => hP r (lt_regCount_iff.mp ?_)
  simpa using hr

/-! ### `Load` -/

/-- `Load` is one operation of the host (R209). -/
@[simp] theorem perform_load (base : Nat) (bytes : List Byte) (s : State) :
    perform (.load base bytes) s = .next (s.load base bytes) := rfl

end Sys2Proof.Machine

namespace Sys2Proof

open Machine

/-- Settles O30: one write of `I`, of the 16-bit sum. -/
theorem addIndexWrapsAtSixteenBits : Obligations.AddIndexWrapsAtSixteenBits := fun x s => by
  obtain ⟨t, hexec, hidx, hrest⟩ := exec_of_setIdx_advance (exec_addI x s)
  refine ⟨(decodeWord_familyF x 0x1E#8).trans rfl, t, hexec, ?_, hrest⟩
  rw [hidx, BitVec.toNat_add, zextByte_toNat]

/-- Settles O31: for a digit one write of `I`, above 15 the fault. -/
theorem fontSpriteAddress : Obligations.FontSpriteAddress := fun x s => by
  refine ⟨(decodeWord_familyF x 0x29#8).trans rfl, fun hdigit => ?_, exec_ldFont_of_not_digit⟩
  obtain ⟨t, hexec, hidx, hrest⟩ := exec_of_setIdx_advance (exec_ldFont_of_digit hdigit)
  exact ⟨t, hexec, by rw [hidx, fontAddress_toNat _ _ hdigit], hrest⟩

/-- Settles O32: inside memory the three digits are stored in order, past its end the fault. -/
theorem bcdStoresThreeDigits : Obligations.BcdStoresThreeDigits := fun x s hm => by
  refine ⟨(decodeWord_familyF x 0x33#8).trans rfl, fun hfits => ?_, fun hout => exec_ldBcd_of_not_fits hout x⟩
  obtain ⟨t, hexec, hbytes, hpc, hframe⟩ := exec_of_writeBytes_advance hm (exec_ldBcd_of_fits hfits x)
  obtain ⟨hundreds, tens, ones⟩ := bcdDigits_toNat (s.readV x)
  refine ⟨t, hexec, ?_, ?_, ?_, hpc, hframe.mono ?_⟩
  · exact (congrArg BitVec.toNat (hbytes 0 (by simp))).trans hundreds
  · exact (congrArg BitVec.toNat (hbytes 1 (by simp))).trans tens
  · exact (congrArg BitVec.toNat (hbytes 2 (by simp))).trans ones
  · rintro l (hl | ⟨k, hk, hl⟩)
    · exact .inl hl
    · exact .inr ⟨k, Nat.le_of_lt_succ hk, hl⟩

/-- Settles O33: inside memory the registers are stored in order, past its end the fault. -/
theorem storeRegistersAscending : Obligations.StoreRegistersAscending := fun x s hm => by
  refine ⟨(decodeWord_familyF x 0x55#8).trans rfl, fun hfits => ?_, exec_stRegs_of_not_fits⟩
  obtain ⟨t, hexec, hbytes, hpc, hframe⟩ := exec_of_writeBytes_advance hm (exec_stRegs_of_fits hfits)
  simp only [State.length_firstRegs, lt_regCount_iff] at hbytes hframe
  exact ⟨t, hexec, fun r hr => (hbytes r.toNat hr).trans (s.getElem_firstRegs_toNat _), hpc, hframe⟩

/-- Settles O34: inside memory the registers are loaded in order, past its end the fault. -/
theorem loadRegistersAscending : Obligations.LoadRegistersAscending := fun x s => by
  refine ⟨(decodeWord_familyF x 0x65#8).trans rfl, fun hfits => ?_, exec_ldRegs_of_not_fits⟩
  refine ⟨_, exec_ldRegs_of_fits hfits, fun r hr => ?_, ?_, ?_⟩
  · exact (s.readV_loadRegs s.mem s.idx.toNat x r).trans (if_pos hr)
  · rw [State.advance_pc, State.writeRegs_pc]
  · exact ((ChangesOnly.refl _ s).loadRegs (fun r hr => .inr ⟨r, hr, rfl⟩) _ _).advance (.inl rfl)

/-- Settles O35: the load reads the bytes that the store put there. -/
theorem storeThenLoadRestores : Obligations.StoreThenLoadRestores := fun x s hm hfits => by
  obtain ⟨-, hstore, -⟩ := storeRegistersAscending x s hm
  obtain ⟨t, hexec, hbytes, -, hframe⟩ := hstore hfits
  have hidx : t.idx = s.idx := hframe .idx (by simp)
  refine ⟨t, hexec, fun u humem huidx => ?_⟩
  obtain ⟨-, hload, -⟩ := loadRegistersAscending x u
  obtain ⟨r, hexec', hregs, -⟩ := hload (by rw [huidx, hidx]; exact hfits)
  refine ⟨r, hexec', fun y hy => ?_⟩
  calc r.readV y = u.memByte (u.idx.toNat + y.toNat) := hregs y hy
    _ = t.memByte (s.idx.toNat + y.toNat) := by rw [State.memByte, State.memByte, humem, huidx, hidx]
    _ = s.readV y := hbytes y hy

/-- Settles O11: the fetch after the store is at `pc + 2 = I`, where `V[0]` and `V[1]` were put. -/
theorem fetchSeesStore : Obligations.FetchSeesStore := fun s x hm hpc hidx hx hfits => by
  obtain ⟨-, hstore, -⟩ := storeRegistersAscending x s hm
  obtain ⟨t, hexec, hbytes, htpc, -⟩ := hstore hfits
  have hnext : t.pc.toNat = s.idx.toNat := by
    rw [htpc, hidx, toNat_add_two (by omega)]
  have hhigh : t.memByte s.idx.toNat = s.readV 0 := hbytes 0 (Nat.zero_le _)
  have hlow : t.memByte (s.idx.toNat + 1) = s.readV 1 := hbytes 1 hx
  exact ⟨t, hexec, by rw [State.fetchWord, hnext, hhigh, hlow]⟩

/-- Settles O12: a `Load` that fits writes its bytes, one that does not fit writes nothing. -/
theorem loadIsAllOrNothing : Obligations.LoadIsAllOrNothing := fun s base bytes hm => by
  refine ⟨fun hfits => ?_, fun hover => ?_⟩ <;> rw [perform_load]
  · rw [s.load_of_fits hfits]
    exact ⟨_, rfl, rfl, rfl, fun _ hk => Memory.read_writeBytes_add hm base hk,
      fun _ ha => Memory.read_writeBytes_of_outside hm ha, rfl⟩
  · rw [s.load_of_not_fits hover]

end Sys2Proof
end

section
/-! Every instruction at once: an instruction takes the fault that the tables name, and otherwise leaves the state that
`effectOf` writes down, one line for each instruction. Frames, `pc` and what is not read are then facts about
`effectOf`.
-/

namespace Sys2Proof.Machine

/-- What an instruction leaves when it does not fault (41_flow.md to 46_timer_key.md). -/
def effectOf (i : Instr) (s : State) : State :=
  match i with
  | .cls => (s.setFb clearScreen).advance
  | .ret => (s.setStack s.stack.tail).goto (s.stack.headD 0)
  | .jp nnn => s.goto (zextAddr nnn)
  | .call nnn => (s.push (s.pc + 2)).goto (zextAddr nnn)
  | .jpOff x nnn => s.goto (zextAddr nnn + zextByte (s.readV (s.jumpReg x)))
  | .seImm _ _ | .sneImm _ _ | .seReg _ _ | .sneReg _ _ | .skp _ | .sknp _ => s.skipIf (skipCondition i s)
  | .ldImm x nn => (s.writeV x nn).advance
  | .addImm x nn => (s.writeV x (s.readV x + nn)).advance
  | .ldReg x y => (s.writeV x (s.readV y)).advance
  | .orReg x y => (s.writeV x (s.readV x ||| s.readV y)).advance
  | .andReg x y => (s.writeV x (s.readV x &&& s.readV y)).advance
  | .xorReg x y => (s.writeV x (s.readV x ^^^ s.readV y)).advance
  | .addReg x y => (s.writeWithFlag x (s.readV x + s.readV y) (carryOut (s.readV x) (s.readV y))).advance
  | .sub x y => (s.writeWithFlag x (s.readV x - s.readV y) (notBorrow (s.readV x) (s.readV y))).advance
  | .shr x _ => (s.writeWithFlag x (s.readV x >>> 1) (shiftOutLow (s.readV x))).advance
  | .subn x y => (s.writeWithFlag x (s.readV y - s.readV x) (notBorrow (s.readV y) (s.readV x))).advance
  | .shl x _ => (s.writeWithFlag x (s.readV x <<< 1) (shiftOutHigh (s.readV x))).advance
  | .rnd x nn => (s.writeV x (s.rnd &&& nn)).advance
  | .ldI nnn => (s.setIdx (zextAddr nnn)).advance
  | .addI x => (s.setIdx (s.idx + zextByte (s.readV x))).advance
  | .ldFont x => (s.setIdx (fontAddress s.params (s.readV x))).advance
  | .ldBcd x => (s.setMem (s.mem.writeBytes s.idx.toNat (bcdDigits (s.readV x)))).advance
  | .stRegs x => (s.setMem (s.mem.writeBytes s.idx.toNat (s.firstRegs x))).advance
  | .ldRegs x => (s.writeRegs 0x0 (s.mem.readBytes s.idx.toNat (regCount x))).advance
  | .drw x y n => (s.drawCells (s.spriteCells x y n)).advance
  | .ldFromDt x => (s.writeV x s.dt).advance
  | .ldKey x => s.key.elim s fun k => (s.writeV x (keyByte k)).advance
  | .ldDt x => (s.setDt (s.readV x)).advance
  | .ldSt x => (s.setSt (s.readV x)).advance
  | .nop _ => s.advance

/-! ### What `exec` answers -/

/-- An instruction whose fault the tables decide by `c`: the fault if `c`, else its effect. -/
theorem exec_of_check {i : Instr} {s : State} {cause : FaultCause} (c : Prop) [Decidable c]
    (hfault : faultOf i s = if c then some cause else none) (htake : c → exec i s = takeFault cause s)
    (heffect : ¬c → exec i s = .next (effectOf i s)) :
    exec i s = (faultOf i s).elim (.next (effectOf i s)) (takeFault · s) := by
  by_cases hc : c
  · rw [hfault, if_pos hc, htake hc]
    rfl
  · rw [hfault, if_neg hc, heffect hc]
    rfl

/-- The key test as R26's table has it. -/
theorem State.keyIs_eq_any (s : State) (b : Byte) : s.keyIs b = s.key.any fun k => k.toNat == b.toNat := by
  rw [Bool.eq_iff_iff, s.keyIs_iff, Option.any_eq_true]
  simp only [beq_iff_eq]

/-- R100 with an entry on the stack leaves the effect. -/
theorem exec_ret_of_ne_nil {s : State} (h : s.stack ≠ []) : exec .ret s = .next (effectOf .ret s) := by
  obtain ⟨w, rest, hstack⟩ := List.exists_cons_of_ne_nil h
  rw [exec_ret_of_cons hstack, effectOf, hstack]
  rfl

/-- The fault of the tables or the effect: what every instruction answers. The instructions without a case of their own
make no check. -/
theorem exec_eq (i : Instr) (s : State) :
    exec i s = (faultOf i s).elim (.next (effectOf i s)) (takeFault · s) := by
  cases i with
  | ret =>
    exact exec_of_check (s.stack.length = 0) rfl (fun h => exec_ret_of_nil (List.length_eq_zero_iff.mp h))
      fun h => exec_ret_of_ne_nil fun hnil => h (List.length_eq_zero_iff.mpr hnil)
  | call nnn =>
    exact exec_of_check (s.stack.length ≥ s.params.stackDepth) rfl (fun h => exec_call_of_full h nnn)
      fun h => exec_call_of_room (Nat.not_le.mp h) nnn
  | ldFont x =>
    exact exec_of_check ((s.readV x).toNat > 15) rfl exec_ldFont_of_not_digit
      fun h => exec_ldFont_of_digit (Nat.not_lt.mp h)
  | ldBcd x =>
    exact exec_of_check (s.idx.toNat + 2 > 4095) rfl (fun h => exec_ldBcd_of_not_fits h x)
      fun h => exec_ldBcd_of_fits (Nat.not_lt.mp h) x
  | stRegs x =>
    exact exec_of_check (s.idx.toNat + x.toNat > 4095) rfl exec_stRegs_of_not_fits
      fun h => exec_stRegs_of_fits (Nat.not_lt.mp h)
  | ldRegs x =>
    exact exec_of_check (s.idx.toNat + x.toNat > 4095) rfl exec_ldRegs_of_not_fits
      fun h => exec_ldRegs_of_fits (Nat.not_lt.mp h)
  | drw x y n =>
    exact exec_of_check (s.rowsOnScreen y n ≥ 1 ∧ s.idx.toNat + s.rowsOnScreen y n - 1 > 4095) rfl
      (fun h => exec_drw_of_not_fits (by omega) x) fun h => exec_drw_of_fits (by omega) x
  | skp x | sknp x =>
    simp only [exec_skp, exec_sknp, State.keyIs_eq_any]
    rfl
  | ldKey x =>
    cases hkey : s.key with
    | none =>
      rw [exec_ldKey_of_none hkey, effectOf, hkey]
      rfl
    | some k =>
      rw [exec_ldKey_of_some hkey, effectOf, hkey]
      rfl
  | _ => rfl

/-- In the cases of the fault tables nothing but `fault` changes (R176). -/
theorem exec_of_faultOf_eq_some {i : Instr} {s : State} {c : FaultCause} (h : faultOf i s = some c) :
    exec i s = .next { s with fault := some c } := by
  rw [exec_eq, h]
  rfl

/-- In every other case the instruction has its effect. -/
theorem exec_of_faultOf_eq_none {i : Instr} {s : State} (h : faultOf i s = none) :
    exec i s = .next (effectOf i s) := by
  rw [exec_eq, h]
  rfl

/-- The two ways of an instruction, as one inversion. -/
theorem exec_cases {i : Instr} {s t : State} (h : exec i s = .next t) :
    (∃ c, faultOf i s = some c ∧ t = { s with fault := some c }) ∨ (faultOf i s = none ∧ t = effectOf i s) := by
  cases hfault : faultOf i s with
  | some c =>
    rw [exec_of_faultOf_eq_some hfault] at h
    cases h
    exact .inl ⟨c, rfl, rfl⟩
  | none =>
    rw [exec_of_faultOf_eq_none hfault] at h
    cases h
    exact .inr ⟨rfl, rfl⟩

/-! ### What an effect changes -/

/-- No effect writes `fault`. -/
theorem effectOf_fault (i : Instr) (s : State) : (effectOf i s).fault = s.fault := by
  cases i with
  | ldRegs x => exact s.writeRegs_fault _ _
  | drw x y n => exact s.drawCells_fault _
  | ldKey x =>
    rw [effectOf]
    cases s.key <;> rfl
  | _ => rfl

/-- The frame of every effect: the places of the spec's tables (`writesOf`), by the updates it is made of. -/
theorem effectOf_changesOnly (i : Instr) {s : State} (hm : s.mem.wf) :
    ChangesOnly (writesOf i s) s (effectOf i s) := by
  have h := ChangesOnly.refl (writesOf i s) s
  cases i with
  | cls => exact (h.setFb (fun y x => .inr ⟨y, x, rfl⟩) _).advance (.inl rfl)
  | ret | call nnn => exact (h.setStack (.inr rfl) _).goto (.inl rfl) _
  | jp nnn | jpOff x nnn => exact h.goto (.inl rfl) _
  | seImm x nn | sneImm x nn | seReg x y | sneReg x y | skp x | sknp x => exact h.skipIf (.inl rfl) _
  | ldImm x nn | addImm x nn | ldReg x y | orReg x y | andReg x y | xorReg x y | rnd x nn | ldFromDt x =>
    exact (h.writeV (.inr rfl) _).advance (.inl rfl)
  | addReg x y | sub x y | shr x y | subn x y | shl x y =>
    exact (h.writeWithFlag (.inr (.inl rfl)) (.inr (.inr rfl)) _ _).advance (.inl rfl)
  | ldI nnn | addI x | ldFont x => exact (h.setIdx (.inr rfl) _).advance (.inl rfl)
  | ldBcd x =>
    refine (h.writeBytes hm fun k hk => .inr ⟨k, ?_, rfl⟩).advance (.inl rfl)
    rw [length_bcdDigits] at hk
    exact Nat.le_of_lt_succ hk
  | stRegs x =>
    refine (h.writeBytes hm fun k hk => .inr ⟨k, ?_, rfl⟩).advance (.inl rfl)
    rwa [s.length_firstRegs, lt_regCount_iff] at hk
  | ldRegs x => exact (h.loadRegs (fun r hr => .inr ⟨r, hr, rfl⟩) _ _).advance (.inl rfl)
  | drw x y n =>
    refine (h.drawCells fun ⟨cy, cx⟩ hmem => ?_).advance (.inl rfl)
    have hlit := (s.mem_spriteCells x y n cy cx).mp hmem
    exact ⟨.inr (.inl ⟨rfl, cy, cx, hlit⟩), .inr (.inr ⟨cy, cx, hlit, rfl⟩)⟩
  | ldKey x =>
    rw [effectOf]
    cases hkey : s.key with
    | none => exact h
    | some k => exact (h.writeV (.inr ⟨Option.isSome_of_eq_some hkey, rfl⟩) _).advance (.inl rfl)
  | ldDt x => exact (h.setDt (.inr rfl) _).advance (.inl rfl)
  | ldSt x => exact (h.setSt (.inr rfl) _).advance (.inl rfl)
  | nop w => exact h.advance (.inl rfl)

/-! ### Where an effect leaves `pc` -/

/-- A skip inside memory, as a number (R26). -/
theorem State.skipIf_pc_toNat {s : State} (hpc : s.pc.toNat ≤ 0xFFE) (c : Bool) :
    (s.skipIf c).pc.toNat = if c then s.pc.toNat + 4 else s.pc.toNat + 2 := by
  cases c
  · exact toNat_add_two hpc
  · exact toNat_add_four hpc

/-- `pc` after every effect, executed where a `Step` executes one: the table's value (R26). -/
theorem effectOf_pc_toNat (i : Instr) {s : State} (hpc : s.pc.toNat ≤ 0xFFE) :
    (effectOf i s).pc.toNat = pcAfter i s := by
  cases i with
  | ret => rfl
  | jp nnn | call nnn => exact zextAddr_toNat nnn
  | jpOff x nnn => exact zextAddr_add_zextByte_toNat nnn _
  | seImm x nn | sneImm x nn | seReg x y | sneReg x y | skp x | sknp x => exact State.skipIf_pc_toNat hpc _
  | ldRegs x => exact (congrArg (fun w => (w + 2).toNat) (s.writeRegs_pc _ _)).trans (toNat_add_two hpc)
  | drw x y n => exact (congrArg (fun w => (w + 2).toNat) (s.drawCells_pc _)).trans (toNat_add_two hpc)
  | ldKey x =>
    rw [effectOf, pcAfter]
    cases s.key with
    | none => rfl
    | some k => exact toNat_add_two hpc
  | _ => exact toNat_add_two hpc

end Sys2Proof.Machine

namespace Sys2Proof

open Machine

/-- Settles O47: the fault of the tables or the effect, which leaves `fault`. -/
theorem faultsArePreciseAndTabled : Obligations.FaultsArePreciseAndTabled := fun i s =>
  ⟨fun _ hsome => exec_of_faultOf_eq_some hsome,
    fun hnone => ⟨_, exec_of_faultOf_eq_none hnone, effectOf_fault i s⟩⟩

/-- Settles O50: the frame of the effect. -/
theorem everyInstructionChangesOnlyItsOwn : Obligations.EveryInstructionChangesOnlyItsOwn := fun i _ hm hnone =>
  ⟨_, exec_of_faultOf_eq_none hnone, effectOf_changesOnly i hm⟩

/-- Settles O51: `pc` after the effect. -/
theorem pcFollowsAdvancementPolicy : Obligations.PcFollowsAdvancementPolicy := fun i _ hpc hnone =>
  ⟨_, exec_of_faultOf_eq_none hnone, effectOf_pc_toNat i hpc⟩

end Sys2Proof
end

section
/-! The display instructions (45_display.md): what a draw leaves on the screen and in `VF`, and that a second draw of
the same sprite undoes the first.
-/

namespace Sys2Proof.Machine

/-! ### The last of the sprite's cells -/

/-- In a list ordered by `R`, a member before which and no other nothing comes by `R` is the last. -/
theorem getLast?_of_pairwise {α : Type} {R : α → α → Prop} {l : List α} {a : α} (hl : l.Pairwise R) (ha : a ∈ l)
    (hmax : ∀ b ∈ l, ¬ R a b) : l.getLast? = some a := by
  obtain ⟨before, after, rfl⟩ := List.append_of_mem ha
  cases after with
  | nil => exact List.getLast?_concat
  | cons b after =>
    have hab : R a b := List.rel_of_pairwise_cons (List.pairwise_append.mp hl).2.1 List.mem_cons_self
    exact absurd hab (hmax b (by simp))

/-- `VF` after drawing distinct cells is the collision of the last one (R152). -/
theorem State.flag_drawCells_of_getLast? (s : State) {ps : List (Fin 32 × Fin 64)} (hp : ps.Nodup)
    {p : Fin 32 × Fin 64} (hlast : ps.getLast? = some p) :
    (s.drawCells ps).readV 0xF#4 = flagByte (s.cell p.1 p.2) := by
  rw [s.flag_drawCells hp, hlast]

/-- `VF` is 1 after drawing cells that were all lit. -/
theorem State.flag_drawCells_of_all_lit (s : State) {ps : List (Fin 32 × Fin 64)} (hp : ps.Nodup) (hne : ps ≠ [])
    (hlit : ∀ p ∈ ps, s.cell p.1 p.2 = true) : (s.drawCells ps).readV 0xF#4 = 1 := by
  have hlast : ps.getLast? = some (ps.getLast hne) := List.getLast?_eq_some_getLast hne
  rw [s.flag_drawCells_of_getLast? hp hlast, hlit _ (List.getLast_mem hne)]
  rfl

/-! ### A draw that does not fault -/

/-- It draws the list of the sprite's cells. -/
theorem eq_of_exec_drw {s t : State} {x y n : Nibble} (h : exec (.drw x y n) s = .next t)
    (hnone : faultOf (.drw x y n) s = none) : t = (s.drawCells (s.spriteCells x y n)).advance := by
  rw [exec_of_faultOf_eq_none hnone] at h
  cases h
  rfl

/-- A draw that does not fault toggles the sprite's lit cells (R153). -/
theorem cell_of_exec_drw {s t : State} {x y n : Nibble} (h : exec (.drw x y n) s = .next t)
    (hnone : faultOf (.drw x y n) s = none) (cy : Fin 32) (cx : Fin 64) :
    t.cell cy cx = (s.cell cy cx != s.spriteLit x y n cy cx) := by
  rw [eq_of_exec_drw h hnone, State.advance_cell, s.cell_drawSprite]

/-- `VF` after a draw that does not fault: one draws the list of the sprite's cells. -/
theorem flag_of_exec_drw {s t : State} {x y n : Nibble} (h : exec (.drw x y n) s = .next t)
    (hnone : faultOf (.drw x y n) s = none) : t.readV 0xF#4 = (s.drawCells (s.spriteCells x y n)).readV 0xF#4 := by
  rw [eq_of_exec_drw h hnone, State.advance_readV]

/-! ### The same sprite again -/

/-- What the sprite and its fault are read from: memory, `I`, and the registers of its coordinates. -/
structure SameSprite (x y : Nibble) (s t : State) : Prop where
  /-- The bytes of the rows. -/
  mem : t.mem = s.mem
  /-- Where they stand. -/
  idx : t.idx = s.idx
  /-- The column. -/
  left : t.readV x = s.readV x
  /-- The row. -/
  top : t.readV y = s.readV y

/-- The sprite is lit on the same cells. -/
theorem SameSprite.spriteLit {x y : Nibble} {s t : State} (h : SameSprite x y s t) (n : Nibble) (cy : Fin 32)
    (cx : Fin 64) : t.spriteLit x y n cy cx = s.spriteLit x y n cy cx := by
  simp only [State.spriteLit, State.memByte, h.mem, h.idx, h.left, h.top]

/-- The draw faults alike. -/
theorem SameSprite.faultOf {x y : Nibble} {s t : State} (h : SameSprite x y s t) (n : Nibble) :
    faultOf (.drw x y n) t = faultOf (.drw x y n) s := by
  have hrows : t.rowsOnScreen y n = s.rowsOnScreen y n := by rw [State.rowsOnScreen, State.rowsOnScreen, h.top]
  rw [Machine.faultOf, Machine.faultOf, hrows, h.idx]

/-- A draw that leaves its coordinate registers leaves its sprite. -/
theorem SameSprite.of_exec_drw {s t : State} {x y n : Nibble} (h : exec (.drw x y n) s = .next t)
    (hx : t.readV x = s.readV x) (hy : t.readV y = s.readV y) : SameSprite x y s t := by
  rcases exec_cases h with ⟨c, -, rfl⟩ | ⟨-, rfl⟩
  · exact ⟨rfl, rfl, hx, hy⟩
  · exact ⟨s.drawCells_mem _, s.drawCells_idx _, hx, hy⟩

end Sys2Proof.Machine

namespace Sys2Proof

open Machine

/-- Settles O36: one write of the framebuffer, of the cleared screen. -/
theorem clearScreenUnlightsAll : Obligations.ClearScreenUnlightsAll := by
  refine ⟨rfl, fun s => ⟨_, exec_cls s, s.cell_setFb_clear, rfl, ?_⟩⟩
  exact ((ChangesOnly.refl _ s).setFb (fun y x => .inr ⟨y, x, rfl⟩) _).advance (.inl rfl)

/-- Settles O37: the draw toggles its list of cells, which are the lit ones. -/
theorem drawTogglesSprite : Obligations.DrawTogglesSprite := fun x y n s => by
  obtain ⟨-, -, hdrw⟩ := decodeWord_formatXY x y n
  refine ⟨hdrw, fun hfits => ⟨_, exec_drw_of_fits hfits x, s.cell_drawSprite x y n, ?_, ?_⟩⟩
  · rw [State.advance_pc, State.drawCells_pc]
  · exact ((ChangesOnly.refl _ s).drawCells
      fun p _ => ⟨.inr (.inl rfl), .inr (.inr ⟨p.1, p.2, rfl⟩)⟩).advance (.inl rfl)

/-- Settles O38: the cells are drawn in scan order, so a lit cell with no lit one after it is the last, and without a
lit cell the list is empty. -/
theorem drawFlagIsLastCollision : Obligations.DrawFlagIsLastCollision := fun x y n s t hnone h => by
  rw [flag_of_exec_drw h hnone]
  refine ⟨fun cy cx hlit hmax => ?_, fun hunlit => ?_⟩
  · have hlast : (s.spriteCells x y n).getLast? = some (cy, cx) :=
      getLast?_of_pairwise (s.pairwise_spriteCells x y n) ((s.mem_spriteCells x y n cy cx).mpr hlit)
        fun ⟨dy, dx⟩ hd => hmax dy dx ((s.mem_spriteCells x y n dy dx).mp hd)
    exact s.flag_drawCells_of_getLast? (s.nodup_spriteCells x y n) hlast
  · have hempty : s.spriteCells x y n = [] := List.eq_nil_iff_forall_not_mem.mpr fun ⟨cy, cx⟩ hmem => by
      simpa [hunlit cy cx] using (s.mem_spriteCells x y n cy cx).mp hmem
    rw [hempty]
    rfl

/-- Settles O39: the second draw has the same sprite and faults like the first; it toggles the same cells, which are
then all lit if they were all unlit. -/
theorem drawTwiceRestoresScreen : Obligations.DrawTwiceRestoresScreen := fun x y n s t u hst hx hy htu => by
  have hsame := SameSprite.of_exec_drw hst hx hy
  refine ⟨fun cy cx => ?_, fun hnone ⟨cy, cx, hlit⟩ hunlit => ?_⟩
  · rcases exec_cases htu with ⟨c, hsome, rfl⟩ | ⟨hnone, -⟩
    · rw [exec_of_faultOf_eq_some ((hsame.faultOf n).symm.trans hsome)] at hst
      cases hst
      rfl
    · rw [cell_of_exec_drw htu hnone, hsame.spriteLit, cell_of_exec_drw hst ((hsame.faultOf n).symm.trans hnone)]
      cases s.spriteLit x y n cy cx <;> simp
  · rw [flag_of_exec_drw htu ((hsame.faultOf n).trans hnone)]
    refine t.flag_drawCells_of_all_lit (t.nodup_spriteCells x y n) ?_ fun ⟨dy, dx⟩ hd => ?_
    · exact List.ne_nil_of_mem ((t.mem_spriteCells x y n cy cx).mpr ((hsame.spriteLit n cy cx).trans hlit))
    · have hd' : s.spriteLit x y n dy dx = true :=
        (hsame.spriteLit n dy dx).symm.trans ((t.mem_spriteCells x y n dy dx).mp hd)
      rw [cell_of_exec_drw hst hnone, hunlit dy dx hd', hd']
      rfl

end Sys2Proof
end

section
/-! The keypad and `Tick` (46_timer_key.md, 60_exceptions.md section 7), and the step cycle (40_step_cycle.md): one
`Step` from the next operation of the host to the reply.
-/

namespace Sys2Proof.Machine

/-! ### `Tick` -/

/-- `Tick` is one operation of the host (R209). -/
@[simp] theorem perform_tick (s : State) : perform .tick s = .next s.tick := rfl

/-- R186 for `DT`. -/
@[simp] theorem State.tick_dt (s : State) : s.tick.dt = countDown s.dt := rfl

/-- `k` `Tick`s count `DT` down by `k`, floor 0. -/
theorem State.iterate_tick_dt_toNat (k : Nat) (s : State) : (State.tick^[k] s).dt.toNat = s.dt.toNat - k := by
  induction k with
  | zero => rfl
  | succ k ih => rw [Function.iterate_succ_apply', State.tick_dt, countDown_toNat, ih, Nat.sub_sub]

/-- A byte is 0 when its number is. -/
theorem byte_eq_zero_iff (b : Byte) : b = 0 ↔ b.toNat = 0 := by
  rw [BitVec.toNat_eq, BitVec.ofNat_eq_ofNat, BitVec.toNat_zero]

/-! ### One `Step` -/

/-- A `Step` is one operation of the host (R209). -/
@[simp] theorem perform_step (key : Option Nibble) (rnd : Byte) (s : State) :
    perform (.step key rnd) s = hostStep key rnd s := rfl

/-- A step of a running machine whose next operation is a `Step` executes the instruction at `pc` (R91 steps 3 to 6). -/
theorem step_of_running {s u t : State} {key : Option Nibble} {rnd : Byte} (hnext : s.nextOp = (.step key rnd, u))
    (hfault : u.fault = none) (hpc : u.pc.toNat ≤ 0xFFE)
    (hexec : exec (decodeWord u.fetchWord) (u.latch key rnd) = .next t) :
    step s = .next (t.answer (.status t.statusAfter)) := by
  rw [step, hnext, perform_step, hostStep_of_running hfault hpc, runInstr_eq hexec]

/-! ### The placed word -/

/-- Where a word is placed there is room for it, and the machine is not past the end (R57). -/
theorem State.fetchPc_le (s : State) : s.fetchPc.toNat ≤ 0xFFE := by
  unfold State.fetchPc State.atEnd
  split
  · decide
  · rename_i hend
    simpa using hend

/-- The placed word is at `pc`, high byte first (R53). -/
theorem State.fetchWord_placeWord {s : State} (hm : s.mem.wf) (w : Word) : (s.placeWord w).fetchWord = w := by
  have hhigh : (s.placeWord w).memByte s.fetchPc.toNat = highByte w :=
    Memory.read_writeBytes_add hm s.fetchPc.toNat (bs := [highByte w, lowByte w]) (k := 0) (by simp)
  have hlow : (s.placeWord w).memByte (s.fetchPc.toNat + 1) = lowByte w :=
    Memory.read_writeBytes_add hm s.fetchPc.toNat (bs := [highByte w, lowByte w]) (k := 1) (by simp)
  change (s.placeWord w).memByte s.fetchPc.toNat ++ (s.placeWord w).memByte (s.fetchPc.toNat + 1) = w
  rw [hhigh, hlow, word_bytes]

/-- A machine without a fault and with `pc` inside memory is running (R95). -/
theorem State.runState_eq_running {s : State} (hfault : s.fault = none) (hpc : s.pc.toNat ≤ 0xFFE) :
    s.runState = .running := by
  rw [State.runState, hfault, if_neg (by simp), if_neg (Nat.not_lt.mpr hpc)]

/-- With nothing but `Step`s in front, or nothing at all, the next operation is a `Step`. -/
theorem State.isStep_nextOp_of_dropWhile {s : State} {l : List HostOp} (h : s.ops = l.dropWhile fun op => !op.isStep) :
    s.nextOp.1.isStep = true := by
  cases hops : s.ops with
  | nil =>
    rw [s.nextOp_nil hops]
    rfl
  | cons op rest =>
    rw [s.nextOp_cons hops]
    have hhead : (l.dropWhile fun op => !op.isStep) ≠ [] := by
      rw [← h, hops]
      exact List.cons_ne_nil op rest
    have hop := List.head_dropWhile_not (fun op : HostOp => !op.isStep) hhead
    simpa [← h, hops] using hop

end Sys2Proof.Machine

namespace Sys2Proof

open Machine

/-- Settles O42: without a key the state itself, with one a register write. -/
theorem waitForKey : Obligations.WaitForKey := fun x s => by
  refine ⟨(decodeWord_familyF x 0x0A#8).trans rfl, fun hnone => exec_ldKey_of_none hnone x, fun k hk => ?_⟩
  obtain ⟨t, hexec, hkey, hrest⟩ := exec_of_writeV_advance (exec_ldKey_of_some hk x)
  exact ⟨t, hexec, by rw [hkey, keyByte_toNat], hrest⟩

/-- Settles O45: both timers counted down once. -/
theorem tickCountsBothTimersDown : Obligations.TickCountsBothTimersDown := fun s =>
  ⟨_, perform_tick s, countDown_toNat s.dt, countDown_toNat s.st, rfl⟩

/-- Settles O46: by the number that each timer holds after `k` `Tick`s. -/
theorem timersReachZeroAfterThatManyTicks : Obligations.TimersReachZeroAfterThatManyTicks := fun k s => by
  refine ⟨s.iterate_tick_dt_toNat k, s.iterate_tick_st_toNat k, ?_, ?_⟩
  · rw [byte_eq_zero_iff, s.iterate_tick_dt_toNat k, Nat.sub_eq_zero_iff_le]
  · rw [byte_eq_zero_iff, s.iterate_tick_st_toNat k, Nat.sub_eq_zero_iff_le]

/-- Settles O6: the written `Step` and the free one both lead to the instruction at `pc`, and the status is read off
`fault`. -/
theorem stepRunsDecodedInstruction : Obligations.StepRunsDecodedInstruction := by
  rintro s key rnd s' t i hfault hpc hop rfl - hexec
  have hstep : step s = .next (t.answer (.status t.statusAfter)) := by
    rcases hop with ⟨rest, hops, rfl⟩ | ⟨hops, rfl, rfl, rfl⟩
    · exact step_of_running (s.nextOp_cons hops) hfault hpc hexec
    · exact step_of_running (s.nextOp_nil hops) hfault hpc hexec
  refine hstep.trans (congrArg _ ?_)
  cases hcause : t.fault <;> simp only [State.answer, State.statusAfter, hcause]

/-- Settles O7: the first two ways of a `Step`, a fault before the end of memory. -/
theorem stoppedStepChangesNothing : Obligations.StoppedStepChangesNothing := fun _ key rnd =>
  ⟨fun _ hfault => hostStep_of_fault hfault key rnd, fun hnone hpc => hostStep_of_end hnone hpc key rnd⟩

/-- Settles O8: a step is one operation of the host, and each answers. -/
theorem stepAlwaysAnswers : Obligations.StepAlwaysAnswers := fun s => perform_next s.nextOp.1 s.nextOp.2

/-- Settles O9: the word stands at `pc`, nothing stops the machine, and only `Step`s are due. -/
theorem placedWordIsFetched : Obligations.PlacedWordIsFetched := fun s w hm => by
  rw [State.withFetchWord, tableWord_sixteen]
  exact ⟨State.fetchWord_placeWord hm w, State.runState_eq_running rfl s.fetchPc_le,
    State.isStep_nextOp_of_dropWhile rfl⟩

end Sys2Proof
end

section
/-! What instructions do not read (60_exceptions.md section 8, 10_state.md section 6): replacing the key, the random
byte and the sound timer before an instruction is replacing them after it, if it is not one that uses them.
-/

namespace Sys2Proof.Machine

/-- The state with another key, random byte and sound timer. -/
def State.withInputs (s : State) (key : Option Nibble) (rnd st : Byte) : State :=
  { s with key := key, rnd := rnd, st := st }

/-- The instructions that use the key (R114, R115, R161). -/
def usesKey : Instr → Bool
  | .skp _ | .sknp _ | .ldKey _ => true
  | _ => false

/-- The instruction that uses the random byte (R133). -/
def usesRnd : Instr → Bool
  | .rnd _ _ => true
  | _ => false

/-- What `ST` is after an instruction that left `t`, if it was `st` before: `FX18` overwrites it (R163). -/
def stAfter (i : Instr) (t : State) (st : Byte) : Byte :=
  match i with
  | .ldSt _ => t.st
  | _ => st

/-! ### The updates of several steps -/

/-- A sprite bit is drawn whatever the inputs. -/
theorem State.drawCell_withInputs (s : State) (key : Option Nibble) (rnd st : Byte) (p : Fin 32 × Fin 64) :
    (s.withInputs key rnd st).drawCell p = (s.drawCell p).withInputs key rnd st := by
  have hcell : (s.withInputs key rnd st).cell p.1 p.2 = s.cell p.1 p.2 := rfl
  rw [State.drawCell, State.drawCell, hcell]
  split <;> rfl

/-- So is a list of them. -/
theorem State.drawCells_withInputs (s : State) (key : Option Nibble) (rnd st : Byte) (ps : List (Fin 32 × Fin 64)) :
    (s.withInputs key rnd st).drawCells ps = (s.drawCells ps).withInputs key rnd st := by
  induction ps generalizing s with
  | nil => rfl
  | cons p ps ih => rw [State.drawCells, State.drawCells, State.drawCell_withInputs, ih]

/-- Registers are loaded whatever the inputs. -/
theorem State.writeRegs_withInputs (s : State) (key : Option Nibble) (rnd st : Byte) (k : Nibble) (bs : List Byte) :
    (s.withInputs key rnd st).writeRegs k bs = (s.writeRegs k bs).withInputs key rnd st := by
  induction bs generalizing s k with
  | nil => rfl
  | cons b bs ih => exact ih (s.writeV k b) (k + 1)

/-! ### Every instruction -/

/-- Other inputs before an effect are other inputs after it. The instructions without a case of their own are updates
that name neither the key, nor the random byte, nor `ST`. -/
theorem effectOf_withInputs {i : Instr} {s : State} {key : Option Nibble} {rnd : Byte}
    (hkey : usesKey i = true → key = s.key) (hrnd : usesRnd i = true → rnd = s.rnd) (st : Byte) :
    effectOf i (s.withInputs key rnd st) = (effectOf i s).withInputs key rnd (stAfter i (effectOf i s) st) := by
  cases i with
  | skp x | sknp x =>
    cases hkey rfl
    rfl
  | ldKey x =>
    cases hkey rfl
    rw [effectOf, effectOf]
    change s.key.elim _ _ = _
    cases s.key <;> rfl
  | rnd x nn =>
    cases hrnd rfl
    rfl
  | ldRegs x => exact congrArg State.advance (s.writeRegs_withInputs key rnd st _ _)
  | drw x y n => exact congrArg State.advance (s.drawCells_withInputs key rnd st _)
  | _ => rfl

/-- No fault depends on the inputs. -/
theorem faultOf_withInputs (i : Instr) (s : State) (key : Option Nibble) (rnd st : Byte) :
    faultOf i (s.withInputs key rnd st) = faultOf i s := rfl

/-- No instruction that faults is `FX18`. -/
theorem stAfter_of_faultOf_eq_some {i : Instr} {s : State} {c : FaultCause} (h : faultOf i s = some c) (t : State)
    (st : Byte) : stAfter i t st = st := by
  cases i with
  | ldSt x => cases h
  | _ => rfl

/-- Other inputs before an instruction are other inputs after it, whether it faults or not. -/
theorem exec_withInputs {i : Instr} {s t : State} {key : Option Nibble} {rnd : Byte} (h : exec i s = .next t)
    (hkey : usesKey i = true → key = s.key) (hrnd : usesRnd i = true → rnd = s.rnd) (st : Byte) :
    exec i (s.withInputs key rnd st) = .next (t.withInputs key rnd (stAfter i t st)) := by
  have hfault := faultOf_withInputs i s key rnd st
  rcases exec_cases h with ⟨c, hsome, rfl⟩ | ⟨hnone, rfl⟩
  · rw [stAfter_of_faultOf_eq_some hsome]
    exact exec_of_faultOf_eq_some (hfault.trans hsome)
  · rw [exec_of_faultOf_eq_none (hfault.trans hnone), effectOf_withInputs hkey hrnd]

/-- `ST` as it was before an effect gives `ST` as the effect left it. -/
theorem stAfter_effectOf (i : Instr) (s : State) : stAfter i (effectOf i s) s.st = (effectOf i s).st := by
  cases i with
  | ldRegs x => exact (s.writeRegs_st _ _).symm
  | drw x y n => exact (s.drawCells_st _).symm
  | ldKey x =>
    rw [effectOf]
    cases s.key <;> rfl
  | _ => rfl

/-- So it does for every instruction. -/
theorem stAfter_of_exec {i : Instr} {s t : State} (h : exec i s = .next t) : stAfter i t s.st = t.st := by
  rcases exec_cases h with ⟨c, hsome, rfl⟩ | ⟨-, rfl⟩
  · exact stAfter_of_faultOf_eq_some hsome _ _
  · exact stAfter_effectOf i s

/-- An instruction that is none of the three does not use the key. -/
theorem usesKey_eq_false {i : Instr} (hskp : ∀ x, i ≠ .skp x) (hsknp : ∀ x, i ≠ .sknp x) (hld : ∀ x, i ≠ .ldKey x) :
    usesKey i = false := by
  cases i with
  | skp x => exact absurd rfl (hskp x)
  | sknp x => exact absurd rfl (hsknp x)
  | ldKey x => exact absurd rfl (hld x)
  | _ => rfl

/-- An instruction other than `CXNN` does not use the random byte. -/
theorem usesRnd_eq_false {i : Instr} (hrnd : ∀ x nn, i ≠ .rnd x nn) : usesRnd i = false := by
  cases i with
  | rnd x nn => exact absurd rfl (hrnd x nn)
  | _ => rfl

end Sys2Proof.Machine

namespace Sys2Proof

open Machine

/-- Settles O52: another key, with the random byte and `ST` as they are. -/
theorem otherInstructionsIgnoreKey : Obligations.OtherInstructionsIgnoreKey := fun i s t k hskp hsknp hld h => by
  have hother := exec_withInputs (key := k) (rnd := s.rnd) h
    (fun huse => absurd huse (by simp [usesKey_eq_false hskp hsknp hld])) (fun _ => rfl) s.st
  refine hother.trans ?_
  rw [stAfter_of_exec h, ← (exec_sameHost h).rnd]
  rfl

/-- Settles O53: another random byte, with the key and `ST` as they are. -/
theorem otherInstructionsIgnoreRandom : Obligations.OtherInstructionsIgnoreRandom := fun i s t b hrnd h => by
  have hother := exec_withInputs (key := s.key) (rnd := b) h (fun _ => rfl)
    (fun huse => absurd huse (by simp [usesRnd_eq_false hrnd])) s.st
  refine hother.trans ?_
  rw [stAfter_of_exec h, ← (exec_sameHost h).key]
  rfl

/-- Settles O54: another `ST`, with the key and the random byte as they are. -/
theorem soundTimerIsNeverRead : Obligations.SoundTimerIsNeverRead := fun i s t b h => by
  have hother := exec_withInputs h (fun _ => rfl) (fun _ => rfl) b
  refine hother.trans ?_
  rw [← (exec_sameHost h).key, ← (exec_sameHost h).rnd]
  cases i <;> rfl

end Sys2Proof
end

section
/-! Runs of a stopped machine (40_step_cycle.md section 2, 60_exceptions.md section 5): a faulted machine and one past
the end of memory are kept by every operation but `Reset`, and so by any number of them.
-/

namespace Sys2Proof.Machine

/-- A `Step` executes nothing from here: a fault is set, or no whole instruction is left in memory (R91 steps 1 and 2).
-/
def State.Stopped (s : State) : Prop := s.fault ≠ none ∨ s.pc.toNat > 0xFFE

/-- What the two absorbing run states keep: everything of the machine but timers, memory and the host's side. -/
structure SameStopped (s t : State) : Prop where
  /-- The fault register. -/
  fault : t.fault = s.fault
  /-- The program counter. -/
  pc : t.pc = s.pc
  /-- The index register. -/
  idx : t.idx = s.idx
  /-- The stack. -/
  stack : t.stack = s.stack
  /-- The registers. -/
  v : t.v = s.v
  /-- The framebuffer. -/
  fb : t.fb = s.fb

/-- A state keeps what it has. -/
theorem SameStopped.refl (s : State) : SameStopped s s := ⟨rfl, rfl, rfl, rfl, rfl, rfl⟩

/-- Kept twice is kept. -/
theorem SameStopped.trans {s t u : State} (h : SameStopped s t) (h' : SameStopped t u) : SameStopped s u :=
  ⟨h'.fault.trans h.fault, h'.pc.trans h.pc, h'.idx.trans h.idx, h'.stack.trans h.stack, h'.v.trans h.v,
    h'.fb.trans h.fb⟩

/-- It is stopped still. -/
theorem SameStopped.stopped {s t : State} (h : SameStopped s t) (hs : s.Stopped) : t.Stopped := by
  rwa [State.Stopped, h.fault, h.pc]

/-- A register reads alike. -/
theorem SameStopped.readV {s t : State} (h : SameStopped s t) (r : Nibble) : t.readV r = s.readV r := by
  simp only [State.readV, h.v]

/-- A cell reads alike. -/
theorem SameStopped.cell {s t : State} (h : SameStopped s t) (y : Fin 32) (x : Fin 64) : t.cell y x = s.cell y x := by
  simp only [State.cell, h.fb]

/-- The run state is the same (R95). -/
theorem SameStopped.runState {s t : State} (h : SameStopped s t) : t.runState = s.runState := by
  simp only [State.runState, h.fault, h.pc]

/-! ### One operation -/

/-- A `Step` of a stopped machine answers and no more. -/
theorem hostStep_of_stopped {s : State} (hs : s.Stopped) (key : Option Nibble) (rnd : Byte) :
    ∃ r, hostStep key rnd s = .next (s.answer r) := by
  cases hfault : s.fault with
  | some c => exact ⟨_, hostStep_of_fault hfault key rnd⟩
  | none => exact ⟨_, hostStep_of_end hfault (hs.resolve_left (not_not_intro hfault)) key rnd⟩

/-- `Load` writes memory and the reply (R65). -/
theorem State.load_eq (s : State) (base : Nat) (bytes : List Byte) :
    ∃ m r, s.load base bytes = { s with mem := m, reply := r } := by
  rcases Nat.lt_or_ge 4096 (base + bytes.length) with hover | hfits
  · exact ⟨s.mem, _, s.load_of_not_fits hover⟩
  · exact ⟨_, _, s.load_of_fits hfits⟩

/-- Every operation but `Reset` keeps a stopped machine, and the host's plans. -/
theorem perform_of_stopped {op : HostOp} {s t : State} (hs : s.Stopped) (hop : op ≠ .reset)
    (h : perform op s = .next t) : SameStopped s t ∧ t.ops = s.ops := by
  cases op with
  | reset => exact absurd rfl hop
  | load base bytes =>
    obtain ⟨m, r, hload⟩ := s.load_eq base bytes
    rw [perform_load, hload] at h
    cases h
    exact ⟨⟨rfl, rfl, rfl, rfl, rfl, rfl⟩, rfl⟩
  | step key rnd =>
    obtain ⟨r, hstep⟩ := hostStep_of_stopped hs key rnd
    rw [perform_step, hstep] at h
    cases h
    exact ⟨⟨rfl, rfl, rfl, rfl, rfl, rfl⟩, rfl⟩
  | tick =>
    cases h
    exact ⟨⟨rfl, rfl, rfl, rfl, rfl, rfl⟩, rfl⟩

/-- Taking the next operation off the plans keeps everything else. -/
theorem State.nextOp_sameStopped (s : State) : SameStopped s s.nextOp.2 := by
  obtain ⟨ops, n, hnext, -⟩ := nextOp_eq s
  rw [hnext]
  exact ⟨rfl, rfl, rfl, rfl, rfl, rfl⟩

/-- A host that plans no `Reset` does not reset now, nor later. -/
theorem State.noResetPlanned.nextOp {s : State} (h : s.noResetPlanned) :
    s.nextOp.1 ≠ .reset ∧ s.nextOp.2.noResetPlanned := by
  cases hops : s.ops with
  | nil =>
    rw [s.nextOp_nil hops]
    exact ⟨HostOp.noConfusion, h⟩
  | cons op rest =>
    rw [s.nextOp_cons hops]
    rw [State.noResetPlanned, hops, List.mem_cons, not_or] at h
    obtain ⟨hop, hrest⟩ := h
    exact ⟨Ne.symm hop, hrest⟩

/-! ### Runs -/

/-- A run takes its first step and goes on. -/
theorem run_succ_of_next (M : Host.Core) {s u : M.State} (h : M.step s = .next u) (k : Nat) :
    M.run (k + 1) s = M.run k u := by
  simp only [Host.Core.run, h]

/-- So does a run of this machine. -/
theorem run_succ_of_step {s u : State} (h : step s = .next u) (k : Nat) : core.run (k + 1) s = core.run k u :=
  run_succ_of_next core h k

/-- One step of a stopped machine whose host plans no `Reset`. -/
theorem step_of_stopped {s t : State} (hs : s.Stopped) (hplan : s.noResetPlanned) (h : step s = .next t) :
    SameStopped s t ∧ t.noResetPlanned := by
  obtain ⟨hop, hrest⟩ := hplan.nextOp
  have hnext := s.nextOp_sameStopped
  obtain ⟨hsame, hops⟩ := perform_of_stopped (hnext.stopped hs) hop h
  exact ⟨hnext.trans hsame, by rwa [State.noResetPlanned, hops]⟩

/-- Any number of steps: a stopped machine stays as it is until the host resets. -/
theorem run_of_stopped {k : Nat} {s t : State} (hs : s.Stopped) (hplan : s.noResetPlanned)
    (h : core.run k s = .next t) : SameStopped s t := by
  induction k generalizing s with
  | zero =>
    cases h
    exact .refl _
  | succ k ih =>
    obtain ⟨u, hu⟩ := perform_next s.nextOp.1 s.nextOp.2
    obtain ⟨hsame, hplan'⟩ := step_of_stopped hs hplan hu
    rw [run_succ_of_step hu] at h
    exact hsame.trans (ih (hsame.stopped hs) hplan' h)

/-- The run state `ENDED` (R95). -/
theorem State.runState_eq_ended_iff (s : State) : s.runState = .ended ↔ s.fault = none ∧ s.pc.toNat > 0xFFE := by
  unfold State.runState
  cases s.fault with
  | some c => simp
  | none => simp

end Sys2Proof.Machine

namespace Sys2Proof

open Machine

/-- Settles O48: a faulted machine is stopped. -/
theorem faultedMachineStaysFaulted : Obligations.FaultedMachineStaysFaulted := fun k s t c hfault hplan h => by
  have hs : s.Stopped := .inl (by rw [hfault]; exact Option.some_ne_none c)
  have hsame := run_of_stopped hs hplan h
  exact ⟨hsame.fault.trans hfault, hsame.pc, hsame.idx, hsame.stack, hsame.readV, hsame.cell⟩

/-- Settles O49: so is a machine past the end of memory. -/
theorem endedMachineStaysEnded : Obligations.EndedMachineStaysEnded := fun k s t hended hplan h => by
  obtain ⟨-, hpc⟩ := s.runState_eq_ended_iff.mp hended
  have hsame := run_of_stopped (.inr hpc) hplan h
  exact ⟨hsame.runState.trans hended, hsame.pc, hsame.idx, hsame.stack, hsame.readV, hsame.cell⟩

end Sys2Proof
end

section
/-! The invariant (10_state.md sections 4, 7 and 9): it holds after reset, an instruction that a `Step` executes keeps
each of its clauses, and the other operations of the host touch little of what it speaks of.
-/

namespace Sys2Proof.Machine

/-! ### What an effect keeps of the invariant -/

/-- When the tables name no fault, the condition of the fault does not hold. -/
theorem not_of_check_eq_none {c : Prop} [Decidable c] {cause : FaultCause}
    (h : (if c then some cause else none) = none) : ¬c := fun hc =>
  Option.some_ne_none cause ((if_pos hc).symm.trans h)

/-- An effect that follows a passed check keeps memory canonical: its stores are inside memory. -/
theorem effectOf_mem_wf {i : Instr} {s : State} (hnone : faultOf i s = none) (hm : s.mem.wf) :
    (effectOf i s).mem.wf := by
  cases i with
  | ldBcd x =>
    have hfits : ¬ s.idx.toNat + 2 > 4095 := not_of_check_eq_none hnone
    have hlen : s.idx.toNat + (bcdDigits (s.readV x)).length ≤ Config.memSize := by
      rw [length_bcdDigits, Config.memSize]
      omega
    exact Memory.wf_writeBytes hm hlen
  | stRegs x =>
    have hfits : ¬ s.idx.toNat + x.toNat > 4095 := not_of_check_eq_none hnone
    have hlen : s.idx.toNat + (s.firstRegs x).length ≤ Config.memSize := by
      rw [s.length_firstRegs, regCount, Config.memSize]
      omega
    exact Memory.wf_writeBytes hm hlen
  | ldRegs x => exact (s.writeRegs_mem _ _).symm ▸ hm
  | drw x y n => exact (s.drawCells_mem _).symm ▸ hm
  | ldKey x =>
    rw [effectOf]
    cases s.key with
    | none => exact hm
    | some k => exact hm
  | _ => exact hm

/-- The stack after an effect: as before, popped, or with `pc + 2` pushed where there was room (R33). -/
theorem effectOf_stack_cases {i : Instr} {s : State} (hnone : faultOf i s = none) :
    (effectOf i s).stack = s.stack ∨ (effectOf i s).stack = s.stack.tail ∨
      (s.stack.length < s.params.stackDepth ∧ (effectOf i s).stack = (s.pc + 2) :: s.stack) := by
  cases i with
  | ret => exact .inr (.inl rfl)
  | call nnn =>
    have hroom : ¬ s.stack.length ≥ s.params.stackDepth := not_of_check_eq_none hnone
    exact .inr (.inr ⟨Nat.not_le.mp hroom, rfl⟩)
  | ldRegs x => exact .inl (s.writeRegs_stack _ _)
  | drw x y n => exact .inl (s.drawCells_stack _)
  | ldKey x =>
    rw [effectOf]
    cases s.key with
    | none => exact .inl rfl
    | some k => exact .inl rfl
  | _ => exact .inl rfl

/-- No more than `STACK_DEPTH` entries (R20, R33). -/
theorem effectOf_stack_length_le {i : Instr} {s : State} (hnone : faultOf i s = none)
    (hlen : s.stack.length ≤ s.params.stackDepth) : (effectOf i s).stack.length ≤ s.params.stackDepth := by
  rcases effectOf_stack_cases hnone with hstack | hstack | ⟨hroom, hstack⟩ <;> rw [hstack]
  · exact hlen
  · rw [List.length_tail]
    omega
  · exact hroom

/-- No entry above 0x1000, the return address of a `CALL` at 0xFFE (R102). -/
theorem effectOf_stack_le {i : Instr} {s : State} (hnone : faultOf i s = none) (hpc : s.pc.toNat ≤ 0xFFE)
    (hentries : ∀ w ∈ s.stack, w.toNat ≤ 0x1000) : ∀ w ∈ (effectOf i s).stack, w.toNat ≤ 0x1000 := by
  intro w hw
  rcases effectOf_stack_cases hnone with hstack | hstack | ⟨-, hstack⟩ <;> rw [hstack] at hw
  · exact hentries w hw
  · exact hentries w (List.mem_of_mem_tail hw)
  · rcases List.mem_cons.mp hw with rfl | hw
    · rw [toNat_add_two hpc]
      omega
    · exact hentries w hw

/-- The popped value is at most 0x1000, or 0 on an empty stack. -/
theorem headD_toNat_le {l : List Word} (h : ∀ w ∈ l, w.toNat ≤ 0x1000) : (l.headD 0).toNat ≤ 0x1000 := by
  cases l with
  | nil => exact Nat.zero_le _
  | cons w l => exact h w List.mem_cons_self

/-- `pc` is at most 0x10FE, which `BXNN` reaches (R26). -/
theorem pcAfter_le (i : Instr) {s : State} (hpc : s.pc.toNat ≤ 0xFFE) (hentries : ∀ w ∈ s.stack, w.toNat ≤ 0x1000) :
    pcAfter i s ≤ 0x10FE := by
  cases i with
  | ret => exact (headD_toNat_le hentries).trans (by decide)
  | jp nnn | call nnn => exact (Nat.le_of_lt nnn.isLt).trans (by decide)
  | jpOff x nnn =>
    have hnnn := nnn.isLt
    have hv := (s.readV (if s.params.jumpUsesV0 then 0x0 else x)).isLt
    simp only [pcAfter]
    omega
  | ldKey x | seImm x nn | sneImm x nn | seReg x y | sneReg x y | skp x | sknp x =>
    simp only [pcAfter]
    split <;> omega
  | _ =>
    simp only [pcAfter]
    omega

/-! ### A `Step` -/

/-- The status of an executed instruction agrees with `fault` (R91 steps 5 and 6). -/
theorem State.replyAgrees_statusAfter (t : State) : (t.answer (.status t.statusAfter)).replyAgrees = true := by
  cases hfault : t.fault <;> simp [State.replyAgrees, State.statusAfter, hfault]

/-- An executed instruction keeps the invariant: a fault changes `fault` alone, with `pc` inside memory, and an effect
keeps the clauses one by one. -/
theorem inv_of_exec {i : Instr} {s t : State} (hinv : s.Inv) (hfault : s.fault = none) (hpc : s.pc.toNat ≤ 0xFFE)
    (h : exec i s = .next t) : (t.answer (.status t.statusAfter)).Inv := by
  obtain ⟨hm, hlen, hentries, hpcle, -, -⟩ := hinv
  rcases exec_cases h with ⟨c, -, rfl⟩ | ⟨hnone, rfl⟩
  · exact ⟨hm, hlen, hentries, hpcle, fun _ => hpc, State.replyAgrees_statusAfter _⟩
  · have hparams := (exec_sameHost h).params
    have hnofault : (effectOf i s).fault = none := (effectOf_fault i s).trans hfault
    refine ⟨effectOf_mem_wf hnone hm, ?_, effectOf_stack_le hnone hpc hentries, ?_, ?_, State.replyAgrees_statusAfter _⟩
    · rw [State.answer_params, hparams]
      exact effectOf_stack_length_le hnone hlen
    · rw [State.answer_pc, effectOf_pc_toNat i hpc]
      exact pcAfter_le i hpc hentries
    · rw [State.answer_fault, hnofault]
      exact fun hsome => absurd hsome Bool.false_ne_true

/-- A `Step` keeps the invariant, by its three ways. -/
theorem inv_of_hostStep {s t : State} {key : Option Nibble} {rnd : Byte} (hinv : s.Inv)
    (h : hostStep key rnd s = .next t) : t.Inv := by
  rcases hostStep_cases h with ⟨c, hfault, rfl⟩ | ⟨-, -, rfl⟩ | ⟨hfault, hpc, u, hexec, rfl⟩
  · obtain ⟨hm, hlen, hentries, hpcle, hfaulted, -⟩ := hinv
    exact ⟨hm, hlen, hentries, hpcle, hfaulted, by simp [State.replyAgrees, hfault]⟩
  · obtain ⟨hm, hlen, hentries, hpcle, hfaulted, -⟩ := hinv
    exact ⟨hm, hlen, hentries, hpcle, hfaulted, rfl⟩
  · exact inv_of_exec (s := s.latch key rnd) hinv hfault hpc hexec

/-! ### The other operations -/

/-- `Reset` establishes the invariant, whatever the parameters. -/
theorem State.inv_hostReset (s : State) : s.hostReset.Inv :=
  ⟨Memory.wf_nil, Nat.zero_le _, fun _ hw => absurd hw List.not_mem_nil,
    show Config.resetPc.toNat ≤ 0x10FE by decide,
    fun hsome => absurd hsome Bool.false_ne_true, rfl⟩

/-- `Load` keeps it: what it writes is inside memory. -/
theorem State.Inv.load {s : State} (hinv : s.Inv) (base : Nat) (bytes : List Byte) : (s.load base bytes).Inv := by
  obtain ⟨hm, hlen, hentries, hpcle, hfaulted, -⟩ := hinv
  rcases Nat.lt_or_ge 4096 (base + bytes.length) with hover | hfits
  · rw [s.load_of_not_fits hover]
    exact ⟨hm, hlen, hentries, hpcle, hfaulted, rfl⟩
  · rw [s.load_of_fits hfits]
    exact ⟨Memory.wf_writeBytes hm hfits, hlen, hentries, hpcle, hfaulted, rfl⟩

/-- `Tick` keeps it: no clause speaks of the timers. -/
theorem State.Inv.tick {s : State} (hinv : s.Inv) : s.tick.Inv := by
  obtain ⟨hm, hlen, hentries, hpcle, hfaulted, -⟩ := hinv
  exact ⟨hm, hlen, hentries, hpcle, hfaulted, rfl⟩

/-- Every operation of the host keeps the invariant. -/
theorem inv_of_perform {op : HostOp} {s t : State} (hinv : s.Inv) (h : perform op s = .next t) : t.Inv := by
  cases op with
  | step key rnd => exact inv_of_hostStep hinv h
  | reset =>
    cases h
    exact s.inv_hostReset
  | load base bytes =>
    cases h
    exact hinv.load base bytes
  | tick =>
    cases h
    exact hinv.tick

/-- Taking the next operation off the plans keeps it: no clause speaks of them. -/
theorem State.Inv.nextOp {s : State} (hinv : s.Inv) : s.nextOp.2.Inv := by
  obtain ⟨ops, n, hnext, -⟩ := nextOp_eq s
  rw [hnext]
  exact hinv

end Sys2Proof.Machine

namespace Sys2Proof

open Machine

/-- Settles O59: a step is one operation of the host. -/
theorem stepKeepsInvariant : Obligations.StepKeepsInvariant := fun _ _ hinv h => inv_of_perform hinv.nextOp h

/-- Settles O58: the reset state is what a `Reset` from it leaves. -/
theorem invariantAtReset : Obligations.InvariantAtReset := State.reset.inv_hostReset

end Sys2Proof
end


section
/-! Reset and boot (70_reset_and_hazards.md): what `Reset` leaves, and the three operations by which the host brings a
program to run.
-/

namespace Sys2Proof.Machine

/-- `Reset` is one operation of the host (R209). -/
@[simp] theorem perform_reset (s : State) : perform .reset s = .next s.hostReset := rfl

/-- Every register is 0 after reset (R20). -/
@[simp] theorem State.reset_readV (r : Nibble) : State.reset.readV r = 0 := Vector.getElem_replicate _

/-- Every cell is unlit after reset (R20). -/
@[simp] theorem State.reset_cell (y : Fin 32) (x : Fin 64) : State.reset.cell y x = false :=
  State.reset.cell_setFb_clear y x

/-- A run whose first operation is written down. -/
theorem run_succ_of_ops_cons {s u : State} {op : HostOp} {rest : List HostOp} (hops : s.ops = op :: rest)
    (h : perform op { s with ops := rest } = .next u) (k : Nat) : core.run (k + 1) s = core.run k u :=
  run_succ_of_step (by rw [step, s.nextOp_cons hops, h]) k

/-! ### The font -/

/-- `FONT_DATA` at `FONT_BASE` in memory that is otherwise zero (R206, R208). -/
def Params.fontMemory (p : Params) : Memory := Memory.writeBytes [] p.fontBase.val p.fontData.toList

/-- The font ends below the program base (R6). -/
theorem Params.font_le (p : Params) : p.fontBase.val + p.fontData.toList.length ≤ 512 := by
  have hbase := p.fontBase.isLt
  rw [Vector.length_toList]
  omega

/-- So it lies inside memory. -/
theorem Params.font_fits (p : Params) : p.fontBase.val + p.fontData.toList.length ≤ 4096 :=
  p.font_le.trans (by decide)

/-- The memory with the font is canonical. -/
theorem Params.wf_fontMemory (p : Params) : p.fontMemory.wf := Memory.wf_writeBytes Memory.wf_nil p.font_fits

/-- The bytes of the font. -/
theorem Params.read_fontMemory (p : Params) {k : Nat} (hk : k < 80) :
    p.fontMemory.read (p.fontBase.val + k) = p.fontData[k] :=
  (Memory.read_writeBytes_add Memory.wf_nil _ (by rwa [Vector.length_toList])).trans (Vector.getElem_toList _)

/-- Zero elsewhere. -/
theorem Params.read_fontMemory_of_outside (p : Params) {a : Nat}
    (ha : a < p.fontBase.val ∨ p.fontBase.val + 80 ≤ a) : p.fontMemory.read a = 0 :=
  Memory.read_writeBytes_of_outside Memory.wf_nil (by rwa [Vector.length_toList])

/-! ### The boot operations -/

/-- The machine after the reset of the boot operations, with what the host still plans (R208). -/
def State.resetWith (s : State) (ops : List HostOp) : State := { s.hostReset with ops := ops }

/-- And after the font load. -/
def State.fontLoaded (s : State) (ops : List HostOp) : State :=
  { s.resetWith ops with mem := s.params.fontMemory, reply := .loadOk }

/-- The boot operations lead to the program load with the font in memory (R208). -/
theorem run_bootOps {s : State} {program : List Byte} {rest : List HostOp}
    (h : s.ops = bootOps s.params program ++ rest) :
    core.run 3 s = .next ((s.fontLoaded rest).load Config.progBase program) := by
  have hfont : perform (.load s.params.fontBase.val s.params.fontData.toList)
      (s.resetWith (.load Config.progBase program :: rest)) =
        .next (s.fontLoaded (.load Config.progBase program :: rest)) :=
    congrArg _ (State.load_of_fits _ s.params.font_fits)
  calc core.run 3 s
      = core.run 2 (s.resetWith (.load s.params.fontBase.val s.params.fontData.toList ::
          .load Config.progBase program :: rest)) := run_succ_of_ops_cons h (perform_reset _) 2
    _ = core.run 1 (s.fontLoaded (.load Config.progBase program :: rest)) :=
      run_succ_of_ops_cons (s := s.resetWith (_ :: _)) rfl hfont 1
    _ = .next ((s.fontLoaded rest).load Config.progBase program) :=
      run_succ_of_ops_cons rfl (perform_load Config.progBase program (s.fontLoaded rest)) 0

end Sys2Proof.Machine

namespace Sys2Proof

open Machine

/-- Settles O55: `Reset` leaves the start state, the host's side apart. -/
theorem resetLeavesZeroedState : Obligations.ResetLeavesZeroedState := by
  rintro s t (rfl | hreset)
  · exact ⟨State.reset_readV, rfl, rfl, rfl, rfl, rfl, State.reset_cell, State.reset_memZero, rfl, rfl, rfl⟩
  · cases hreset
    exact ⟨State.reset_readV, rfl, rfl, rfl, rfl, rfl, State.reset_cell, s.hostReset_memZero, rfl, rfl, rfl⟩

/-- Settles O57: after the three operations the program either stands beside the font or is not written. -/
theorem bootLoadsFontAndProgram : Obligations.BootLoadsFontAndProgram := fun s program rest h => by
  have hrun := run_bootOps h
  have hfontEnd := s.params.font_le
  rw [Vector.length_toList] at hfontEnd
  rcases Nat.lt_or_ge 3584 program.length with hlong | hshort
  · have hover : 4096 < Config.progBase + program.length := by
      rw [Config.progBase]
      omega
    rw [State.load_of_not_fits _ hover] at hrun
    exact ⟨_, hrun, rfl, rfl, rfl, rfl, fun _ hk => s.params.read_fontMemory hk,
      fun hle => absurd hle (Nat.not_le.mpr hlong), fun _ => ⟨rfl, fun _ ha => s.params.read_fontMemory_of_outside ha⟩⟩
  · have hfits : Config.progBase + program.length ≤ 4096 := by
      rw [Config.progBase]
      omega
    have hm := s.params.wf_fontMemory
    rw [State.load_of_fits _ hfits] at hrun
    refine ⟨_, hrun, rfl, rfl, rfl, rfl, fun k hk => ?_, fun _ => ⟨rfl, fun k hk => ?_, fun a hfont hprog => ?_⟩,
      fun hlt => absurd hlt (Nat.not_lt.mpr hshort)⟩
    · have hbelow : s.params.fontBase.val + k < Config.progBase := by
        rw [Config.progBase]
        omega
      exact (Memory.read_writeBytes_of_outside hm (.inl hbelow)).trans (s.params.read_fontMemory hk)
    · exact Memory.read_writeBytes_add hm Config.progBase hk
    · exact (Memory.read_writeBytes_of_outside hm hprog).trans (s.params.read_fontMemory_of_outside hfont)

end Sys2Proof
end
